-- ==== Sys2Proof/Word.lean ====
section
/-! DEFINITION. The words of the codec: bytes, command words, counters and pin levels
(spec/00_scope.md R15, R16; spec/30_encoding.md R120). -/

namespace Sys2Proof

/-- A byte, an unsigned value 0..255; bit 0 is the least significant (R15). -/
abbrev Byte := BitVec 8

/-- One 32-bit command word (R120). -/
abbrev CommandWord := BitVec 32

/-- A 16-bit count: `BYTECNT`, `SIZE`, the size responses and `LONG_COUNT` (R46, R57, R126). -/
abbrev Count := BitVec 16

/-- A pin level: `false` is 0 (low), `true` is 1 (high) (R16). -/
abbrev Level := Bool

end Sys2Proof
end

