-- ==== Sys2Proof/Syntax.lean ====
section
/-! DEFINITION. The nine commands of the opcode map (spec/30_encoding.md R122), one constructor per
row of spec/opcode_table.json. -/

namespace Sys2Proof

/-- A command. `inst` is the instance number `INST`, `n` the byte count `N`, both unsigned (R121).
A field that must be zero (R122) is no operand. The data phase is no part of the word: it comes over
the data port (R80, R83). -/
inductive Instr where
  /-- `sendData(value)`, OPC 0x01 (R156). -/
  | txSendData (inst n : Nat)
  /-- `write(bytes, length)`, OPC 0x02 (R150). -/
  | txWrite (inst n : Nat)
  /-- `poll()`, OPC 0x10 (R209). -/
  | rxPoll (inst : Nat)
  /-- `pollBlocking()`, OPC 0x11 (R210). -/
  | rxPollBlocking (inst : Nat)
  /-- `hasData()`, OPC 0x12 (R211). -/
  | rxHasData (inst : Nat)
  /-- `readInto(value)`, OPC 0x13 (R212). -/
  | rxReadInto (inst n : Nat)
  /-- The exposed size, OPC 0x14 (R213). -/
  | rxReadSize (inst : Nat)
  /-- `crc8(bytes)`, OPC 0x20 (R265). -/
  | chkCrc8 (n : Nat)
  /-- `xor(bytes)`, OPC 0x21 (R266). -/
  | chkXor (n : Nat)
deriving DecidableEq, Repr

end Sys2Proof
end

