-- ==== Sys2Proof/WellFormed.lean ====
section
/-! DEFINITION. Which commands have a word: the operand ranges of spec/30_encoding.md R120 and R121. -/

namespace Sys2Proof

/-- `INST` is an unsigned 8-bit field: 0..255 (R120). -/
def instInRange (inst : Nat) : Bool := decide (inst < 256)

/-- `N` is an unsigned 16-bit field: 0..65535 (R121). -/
def countInRange (n : Nat) : Bool := decide (n < 65536)

/-- Every operand fits its field of the command word. -/
def Instr.wellFormed : Instr → Bool
  | .txSendData inst n => instInRange inst && countInRange n
  | .txWrite inst n => instInRange inst && countInRange n
  | .rxPoll inst => instInRange inst
  | .rxPollBlocking inst => instInRange inst
  | .rxHasData inst => instInRange inst
  | .rxReadInto inst n => instInRange inst && countInRange n
  | .rxReadSize inst => instInRange inst
  | .chkCrc8 n => countInRange n
  | .chkXor n => countInRange n

end Sys2Proof
end

