-- ==== Sys2Proof/Decode.lean ====
section
/-! DEFINITION. The command decoder and encoder (spec/30_encoding.md R120 to R125). Each command word
is one 32-bit unit; it is stored at no address and has no byte order (R91, R125; log 1). -/

namespace Sys2Proof

/-- One row of spec/opcode_table.json: a word is of this row when `word &&& mask = pattern`. -/
structure OpcodeRow where
  mnemonic : String
  pattern : CommandWord
  mask : CommandWord
deriving DecidableEq, Repr

/-- The rows of spec/opcode_table.json, in its order. -/
def opcodeRows : List OpcodeRow :=
  [ ⟨"TX_SEND_DATA", 0x01000000, 0xFF000000⟩,
    ⟨"TX_WRITE", 0x02000000, 0xFF000000⟩,
    ⟨"RX_POLL", 0x10000000, 0xFF00FFFF⟩,
    ⟨"RX_POLL_BLOCKING", 0x11000000, 0xFF00FFFF⟩,
    ⟨"RX_HAS_DATA", 0x12000000, 0xFF00FFFF⟩,
    ⟨"RX_READ_INTO", 0x13000000, 0xFF000000⟩,
    ⟨"RX_READ_SIZE", 0x14000000, 0xFF00FFFF⟩,
    ⟨"CHK_CRC8", 0x20000000, 0xFFFF0000⟩,
    ⟨"CHK_XOR", 0x21000000, 0xFFFF0000⟩ ]

/-- Does the word match the row's fixed bits? -/
def OpcodeRow.matches (row : OpcodeRow) (w : CommandWord) : Bool :=
  decide (w &&& row.mask = row.pattern)

/-- The command's mnemonic, as the opcode table spells it. -/
def Instr.mnemonic : Instr → String
  | .txSendData _ _ => "TX_SEND_DATA"
  | .txWrite _ _ => "TX_WRITE"
  | .rxPoll _ => "RX_POLL"
  | .rxPollBlocking _ => "RX_POLL_BLOCKING"
  | .rxHasData _ => "RX_HAS_DATA"
  | .rxReadInto _ _ => "RX_READ_INTO"
  | .rxReadSize _ => "RX_READ_SIZE"
  | .chkCrc8 _ => "CHK_CRC8"
  | .chkXor _ => "CHK_XOR"

/-- Why a word is illegal by its bits alone (R123). That `INST` names a unit of the right kind is
checked where the units are known, in the meanings (Machine/Operands.lean). -/
inductive DecodeError where
  /-- `OPC` is not in the opcode map. -/
  | unknownOpcode
  /-- `INST != 0` for CHK_CRC8 or CHK_XOR. -/
  | nonzeroInstance
  /-- `N != 0` for RX_POLL, RX_POLL_BLOCKING, RX_HAS_DATA or RX_READ_SIZE. -/
  | nonzeroCount
deriving DecidableEq, Repr

/-- What the decoder makes of a word: a command, or a rejection by name. -/
inductive Decoded where
  | command (i : Instr)
  | rejected (e : DecodeError)
deriving DecidableEq, Repr

/-- `OPC = word[31:24]` (R120). -/
def opcField (w : CommandWord) : Nat := (w.extractLsb' 24 8).toNat
/-- `INST = word[23:16]`, unsigned (R121). -/
def instField (w : CommandWord) : Nat := (w.extractLsb' 16 8).toNat
/-- `N = zext(word[15:0])` (R121). -/
def countField (w : CommandWord) : Nat := (w.extractLsb' 0 16).toNat

/-- A command whose `N` must be 0 (R123). -/
def withoutCount (n : Nat) (i : Instr) : Decoded :=
  if n = 0 then .command i else .rejected .nonzeroCount

/-- A command whose `INST` must be 0 (R123). -/
def withoutInst (inst : Nat) (i : Instr) : Decoded :=
  if inst = 0 then .command i else .rejected .nonzeroInstance

/-- The decoder: total on every word (R122 to R124). -/
def decode (w : CommandWord) : Decoded :=
  let inst := instField w
  let n := countField w
  match opcField w with
  | 0x01 => .command (.txSendData inst n)
  | 0x02 => .command (.txWrite inst n)
  | 0x10 => withoutCount n (.rxPoll inst)
  | 0x11 => withoutCount n (.rxPollBlocking inst)
  | 0x12 => withoutCount n (.rxHasData inst)
  | 0x13 => .command (.rxReadInto inst n)
  | 0x14 => withoutCount n (.rxReadSize inst)
  | 0x20 => withoutInst inst (.chkCrc8 n)
  | 0x21 => withoutInst inst (.chkXor n)
  | _ => .rejected .unknownOpcode

/-- Assemble a word from its three fields (R120). -/
def assemble (opc : BitVec 8) (inst n : Nat) : CommandWord :=
  opc ++ BitVec.ofNat 8 inst ++ BitVec.ofNat 16 n

/-- The word of a command (R120 to R122). -/
def encode : Instr → CommandWord
  | .txSendData inst n => assemble 0x01 inst n
  | .txWrite inst n => assemble 0x02 inst n
  | .rxPoll inst => assemble 0x10 inst 0
  | .rxPollBlocking inst => assemble 0x11 inst 0
  | .rxHasData inst => assemble 0x12 inst 0
  | .rxReadInto inst n => assemble 0x13 inst n
  | .rxReadSize inst => assemble 0x14 inst 0
  | .chkCrc8 n => assemble 0x20 0 n
  | .chkXor n => assemble 0x21 0 n

/-- The word whose bits are `w`, every bit above `nbits` zero, or none if it does not fit 32 bits. -/
def tableWord (nbits w : Nat) : Option CommandWord :=
  if w % 2 ^ nbits < 2 ^ 32 then some (BitVec.ofNat 32 (w % 2 ^ nbits)) else none

/-- The host's question: the command the decoder reads from an opcode-table word. -/
def decodeTableWord (nbits w : Nat) : Option Instr :=
  match tableWord nbits w with
  | some word =>
    match decode word with
    | .command i => some i
    | .rejected _ => none
  | none => none

end Sys2Proof
end

