-- ==== Sys2Proof/Config.lean ====
section
/-! DEFINITION. The configuration records of the units (spec/10_state.md R57), fixed at construction,
and the values the spec leaves open: constants with no body, so that nothing can be proved of what
they are (spec/00_scope.md R7 OPEN parameters and R20 "draw"). -/

namespace Sys2Proof.Machine

/-- Checksum mode `CHK_MODE` (R7, R57). -/
inductive ChkMode where
  | noCheck
  | crc8
  | xor
deriving DecidableEq, Repr

/-- The "poor-link" mode flag `POOR_LINK`, transmitter only (R7, R57). -/
inductive LinkQuality where
  | normal
  | poor
deriving DecidableEq, Repr

/-- A transmitter's configuration record (R57). `SHORT_COUNT`, `COOLDOWN_US` and the derived timing
constants are hard-wired or computed (Machine/Timing.lean). -/
structure TxConfig where
  bitRate : Nat
  link : LinkQuality
  chkMode : ChkMode
  /-- `TX_CAP`, the bytes of `TXBUF`. -/
  cap : Nat
  /-- `LONG_COUNT`, a 16-bit field (R57) and an OPEN parameter (D7). -/
  longCount : Count
  pin : Nat
deriving DecidableEq, Repr

/-- A receiver's configuration record (R57). The receiver ignores `POOR_LINK` (D39). -/
structure RxConfig where
  bitRate : Nat
  chkMode : ChkMode
  /-- `RX_CAP`, the bytes of `RXBUF`. -/
  cap : Nat
  pin : Nat
deriving DecidableEq, Repr

/-- The construction argument of a unit: its kind and its configuration (R330). -/
inductive UnitConfig where
  | tx (c : TxConfig)
  | rx (c : RxConfig)
deriving DecidableEq, Repr

end Sys2Proof.Machine

namespace Sys2Proof.Config

/-- `W`, the width in bits of the host's microsecond counter: OPEN (R7, D9, I4; log 14). -/
opaque clockWidth : Nat

/-- By how much the `LONG_COUNT` of the unit that `withFetchWord` places exceeds `SHORT_COUNT`, modulo
the number of legal values: OPEN (R7, D7, I11; log 6). -/
opaque longExtra : Nat

/-- Host time in µs that passes before the clock sample of this draw (R334, D37; log 8). -/
opaque freeGap : Nat → Nat

/-- The level an RX pin has at the sample of this draw (R334, D37; log 8). -/
opaque freeLevel : Nat → Level

/-- `TX_TIMING`: how long the busy-wait of this draw really lasts, for this nominal duration
(R7, R153, D38; log 17). -/
opaque txTiming : Nat → Nat → Nat

/-- A data-phase byte the host did not drive: the number of responses so far, then the index
(log 11). -/
opaque undrivenByte : Nat → Nat → Byte

/-- Reset draws of the unit that `withFetchWord` places: its buffer's bytes by index, its clock
register and its `PREV` (R60, R61; log 6). -/
opaque resetByte : Nat → Byte
opaque resetClock : Nat
opaque resetLevel : Level

end Sys2Proof.Config
end

