-- ==== Sys2Proof/Machine/State.lean ====
section
/-! DEFINITION. The machine's state as plain data: the registers of spec/10_state.md R42 and R46 for
every constructed unit, the host's pending actions, the ports and what the machine has put out. -/

namespace Sys2Proof.Machine

/-- A sparse map: key and value pairs, keys strictly rising. -/
abbrev Table (α : Type) := List (Nat × α)

/-- One byte-addressed buffer (R80): cells in canonical form, an unlisted index reads as 0
(Machine/Ops.lean; log 15). -/
abbrev Memory := List Host.Cell

/-- The receiver's parse state `STATE` (R46). -/
inductive RxState where
  | idle
  | edgeCandidate
  | framing
deriving DecidableEq, Repr

/-- The registers of a transmitter (R42). -/
structure Tx where
  /-- `TXBUF`. -/
  txBuf : Memory
  /-- `TLAST`, a W-bit clock sample (log 20). -/
  tLast : Nat
  /-- `TXPIN`. -/
  txPin : Level
deriving DecidableEq, Repr

/-- The registers of a receiver (R46). -/
structure Rx where
  /-- `STATE`. -/
  state : RxState
  /-- `PREV`. -/
  prev : Level
  /-- `REF`, a W-bit clock sample (log 20). -/
  ref : Nat
  /-- `BITCNT`. -/
  bitCnt : BitVec 3
  /-- `BYTECNT`. -/
  byteCnt : Count
  /-- `RXBUF`. -/
  rxBuf : Memory
  /-- `READY`. -/
  ready : Bool
  /-- `SIZE`. -/
  size : Count
deriving DecidableEq, Repr

/-- A constructed unit: its configuration record, which no command writes (R8, R57), and its registers. -/
inductive CodecUnit where
  | tx (c : TxConfig) (x : Tx)
  | rx (c : RxConfig) (r : Rx)
deriving DecidableEq, Repr

/-- The values construction leaves to a draw (R60, R61): the buffer's bytes in index order, the clock
register (`TLAST` or `REF`) and, for a receiver, `PREV`. -/
structure ResetDraw where
  bytes : List Byte
  clock : Nat
  level : Level
deriving DecidableEq, Repr

/-- One action of the host (R40, R330): it constructs a unit, or issues a command word with the bytes of
its data phase. -/
inductive HostAction where
  | construct (inst : Nat) (config : UnitConfig) (draw : ResetDraw)
  | command (word : CommandWord) (data : List Byte)
deriving DecidableEq, Repr

/-- The event codes of R291: labels, held in no register. -/
inductive Event where
  | timingNoiseStart
  | timingNoiseBit
  | shortFrame
  | checksumMismatch
  | rxOverflow
  | readTooLarge
  | sendTooLarge
  | illegalCommand
deriving DecidableEq, Repr

/-- A command's response (R126), or the refusal of an illegal word, returned instead of one (R292). -/
inductive Response where
  /-- TX_SEND_DATA: `ok`. -/
  | sendData (ok : Bool)
  /-- TX_WRITE: none, the value 0. -/
  | write
  /-- RX_POLL, RX_POLL_BLOCKING and RX_READ_SIZE: 16 bits. -/
  | size (value : Count)
  /-- RX_HAS_DATA: 1 bit. -/
  | hasData (flag : Bool)
  /-- RX_READ_INTO: `ok`, then N bytes if `ok = 1`. -/
  | readInto (ok : Bool) (bytes : List Byte)
  /-- CHK_CRC8 and CHK_XOR: 8 bits. -/
  | checksum (value : Byte)
  /-- `IllegalCommand(word)` (R123, R292). -/
  | illegalCommand (word : CommandWord)
deriving DecidableEq, Repr

/-- The direction `setPinMode` gives a pin (R299). -/
inductive PinDirection where
  | input
  | output
deriving DecidableEq, Repr

/-- A port call (R298 to R300). -/
inductive PortCall where
  | setPinMode (pin : Nat) (dir : PinDirection)
  /-- The clock sample `now()` gave. -/
  | now (t : Nat)
  /-- The level `readPin(pin)` gave. -/
  | readPin (pin : Nat) (level : Level)
  | writePin (pin : Nat) (level : Level)
  /-- `busyWaitMicros(nominal)`, and how long it really lasted (R153). -/
  | busyWait (nominal actual : Nat)
deriving DecidableEq, Repr

/-- The host ports as the machine sees them: host time, the environment's draws not yet used, and the
calls made so far. An empty list of draws goes on with the opaque values of `Config` (log 8). -/
structure Ports where
  /-- Host time in µs at the last port call (R298, R334). -/
  time : Nat
  /-- Host time that passes before each coming clock sample. -/
  gaps : List Nat
  /-- The level at each coming pin sample. -/
  levels : List Level
  /-- The actual duration of each coming busy-wait. -/
  delays : List Nat
  /-- How many draws have been made. -/
  drawn : Nat
  /-- The port calls made, oldest first. -/
  trace : List PortCall
deriving DecidableEq, Repr

structure State where
  /-- `W`, the width of the host's clock (R298). -/
  clockWidth : Nat
  /-- The constructed units by instance number (R120, R302). -/
  units : Table CodecUnit
  /-- The host's actions not yet done, oldest first. The head is the one being done; its data is the
  data port (R80). -/
  host : List HostAction
  /-- The responses returned, oldest first. -/
  responses : List Response
  /-- The events met, oldest first (R291). -/
  events : List Event
  ports : Ports
deriving DecidableEq, Repr

/-- Why the machine stops. The spec has no fault that stops the block (R290); IllegalCommand is a
response (log 7). -/
inductive Fault where
  /-- Raised by a receiver step that would touch `RXBUF` at or beyond `RX_CAP`, an index that does not
  exist (R80, R87). No state that meets the invariant of Safety.lean raises it. Safe: the machine stops
  where the spec says nothing happens. -/
  | bufferIndexOutOfRange (inst index : Nat)
deriving DecidableEq, Repr

/-- Why the model gives a step no meaning. -/
inductive Refusal where
  /-- Raised by a dispatch arm without a meaning; none is left. Safe: the machine stops. -/
  | notModelled (mnemonic : String)
  /-- Raised by the construction of a unit whose configuration R14 refuses, or whose instance number is
  above 255 (R302; log 13). Safe: the machine stops. -/
  | illegalConfiguration (inst : Nat)
deriving DecidableEq, Repr

/-- The ports before any call. -/
def Ports.reset : Ports :=
  { time := 0, gaps := [], levels := [], delays := [], drawn := 0, trace := [] }

/-- Power-up (R62, R330, R333): no unit is constructed, and the host has issued nothing. A unit's reset
values are given by its construction (Machine/Construct.lean; log 4). -/
def State.reset : State :=
  { clockWidth := Config.clockWidth, units := [], host := [], responses := [], events := [],
    ports := Ports.reset }

end Sys2Proof.Machine
end

