-- ==== Sys2Proof/Machine/Timing.lean ====
section
/-! DEFINITION. The fixed numbers, the derived timing constants, the tolerance windows and the elapsed
time (spec/00_scope.md R7, R10 to R13; spec/41_receive.md R191). All times are whole microseconds. -/

namespace Sys2Proof.Machine

/-- `SHORT_COUNT`, the short preamble (R7, D6). -/
def shortCount : Nat := 10

/-- `COOLDOWN_US`, the pause that selects the long preamble (R7, D8). -/
def cooldownUs : Nat := 400000

/-- `round(num / den) = floor(num / den + 1/2)`, exact (R11). -/
def roundHalfUp (num den : Nat) : Nat := (2 * num + den) / (2 * den)

/-- `FRAME_US`, one bit period (R11). -/
def frameUs (bitRate : Nat) : Nat := roundHalfUp 1000000 bitRate

/-- `HALF_US`, half a bit period (R11). -/
def halfUs (bitRate : Nat) : Nat := roundHalfUp 500000 bitRate

/-- `START_US`, two bit periods (R11). -/
def startUs (bitRate : Nat) : Nat := roundHalfUp 2000000 bitRate

/-- The tolerance window around a nominal duration `x`, bounds inclusive (R12). -/
def inWin (e x : Nat) : Bool := decide (3 * x ≤ 4 * e) && decide (4 * e ≤ 5 * x)

/-- More than two bit periods, strictly (R13). -/
def isSilence (e bitRate : Nat) : Bool := decide (startUs bitRate < e)

/-- A host time as the W-bit counter shows it (R298). -/
def clockValue (width time : Nat) : Nat := time % 2 ^ width

/-- `(t - ref) mod 2^W`, the unsigned modular difference (R15, R191). -/
def elapsed (width t ref : Nat) : Nat := (t + (2 ^ width - ref % 2 ^ width)) % 2 ^ width

/-- `CS`, the checksum bytes of a frame (R10). -/
def checksumSize : ChkMode → Nat
  | .noCheck => 0
  | .crc8 => 1
  | .xor => 1

end Sys2Proof.Machine
end

