-- ==== Sys2Proof/Machine/Ops.lean ====
section
/-! DEFINITION. The operations the meanings share: sparse maps, buffers, ports, and how a command ends:
with a response, or refused (spec/20_memory.md; spec/60_exceptions.md R292, R298 to R300). -/

namespace Sys2Proof.Machine

/-! ### Sparse maps -/

/-- The value at a key. -/
def Table.find {α : Type} (k : Nat) : Table α → Option α
  | [] => none
  | (j, a) :: rest => if j = k then some a else Table.find k rest

/-- Put a value at a key, keeping the keys rising. -/
def Table.insert {α : Type} (k : Nat) (v : α) : Table α → Table α
  | [] => [(k, v)]
  | (j, a) :: rest =>
    if k < j then (k, v) :: (j, a) :: rest
    else if k = j then (k, v) :: rest
    else (j, a) :: Table.insert k v rest

/-- Take a key out. -/
def Table.erase {α : Type} (k : Nat) : Table α → Table α
  | [] => []
  | (j, a) :: rest => if j = k then rest else (j, a) :: Table.erase k rest

/-- The keys are strictly rising. -/
abbrev Table.sorted {α : Type} (m : Table α) : Prop := m.Pairwise (fun a b => a.1 < b.1)

/-! ### Buffers (R80, R84) -/

/-- What an unlisted index of a buffer reads as. It is the value a start acceptance writes (R198), and
no claim about bytes nothing has written: a construction draws every byte (R60, R61; log 15). -/
def Memory.unlisted : Byte := 0

/-- The canonical form: indices strictly rising, no cell equal to what an unlisted index reads as. -/
abbrev Memory.wf (m : Memory) : Prop := Table.sorted m ∧ ∀ cell ∈ m, cell.2 ≠ Memory.unlisted

/-- Every listed index is one of the buffer's `cap` indices (R63 (3)). -/
abbrev Memory.within (cap : Nat) (m : Memory) : Prop := ∀ cell ∈ m, cell.1 < cap

/-- `BUF[i]` (R17). -/
def Memory.read (m : Memory) (i : Nat) : Byte := (Table.find i m).getD Memory.unlisted

/-- `BUF[i] <- v` (R17). -/
def Memory.write (m : Memory) (i : Nat) (v : Byte) : Memory :=
  if v = Memory.unlisted then Table.erase i m else Table.insert i v m

/-- `MemRead(BUF, i, n)` (R17). -/
def Memory.readBytes (m : Memory) (i n : Nat) : List Byte :=
  (List.range n).map (fun k => Memory.read m (i + k))

/-- `MemWrite(BUF, i, len(s), s)` (R17). -/
def Memory.writeBytes (m : Memory) (i : Nat) : List Byte → Memory
  | [] => m
  | b :: rest => Memory.writeBytes (Memory.write m i b) (i + 1) rest

/-- `BUF[i] <- 0` for every `i < cap` (R198). -/
def Memory.clear (cap : Nat) (m : Memory) : Memory := m.filter (fun cell => decide (cap ≤ cell.1))

/-- A buffer of `cap` bytes with drawn contents (R60, R61). Every contents is some draw's. -/
def Memory.drawn (cap : Nat) (bytes : List Byte) : Memory := Memory.writeBytes [] 0 (bytes.take cap)

/-! ### Ports (R298 to R300) -/

/-- Note a port call. -/
def Ports.call (p : Ports) (c : PortCall) : Ports := { p with trace := p.trace ++ [c] }

/-- The host time that passes before the next clock sample. -/
def Ports.nextGap (p : Ports) : Nat := p.gaps.head?.getD (Config.freeGap p.drawn)

/-- The level of the next pin sample. -/
def Ports.nextLevel (p : Ports) : Level := p.levels.head?.getD (Config.freeLevel p.drawn)

/-- How long the next busy-wait really lasts, with the pin latency around it (R153). -/
def Ports.nextDelay (p : Ports) (nominal : Nat) : Nat :=
  p.delays.head?.getD (Config.txTiming p.drawn nominal)

/-- The value the next clock sample gives: host time never goes back (R334). -/
def Ports.nextClock (width : Nat) (p : Ports) : Nat := clockValue width (p.time + p.nextGap)

/-- The ports after `now()` (R298). -/
def Ports.now (width : Nat) (p : Ports) : Ports :=
  Ports.call
    { p with time := p.time + p.nextGap, gaps := p.gaps.tail, drawn := p.drawn + 1 }
    (.now (p.nextClock width))

/-- The ports after `readPin(pin)` (R299). -/
def Ports.readPin (pin : Nat) (p : Ports) : Ports :=
  Ports.call { p with levels := p.levels.tail, drawn := p.drawn + 1 } (.readPin pin p.nextLevel)

/-- The ports after `writePin(pin, level)` (R299). -/
def Ports.writePin (pin : Nat) (level : Level) (p : Ports) : Ports := p.call (.writePin pin level)

/-- The ports after `busyWaitMicros(nominal)` (R300). -/
def Ports.busyWait (nominal : Nat) (p : Ports) : Ports :=
  Ports.call
    { p with time := p.time + p.nextDelay nominal, delays := p.delays.tail, drawn := p.drawn + 1 }
    (.busyWait nominal (p.nextDelay nominal))

/-- The ports after one receiver sample: the clock once and the pin once, at one instant; their order
is not observable (R191, D18; log 18). -/
def Ports.sample (width pin : Nat) (p : Ports) : Ports := (p.now width).readPin pin

/-- The level that sample reads. -/
def Ports.sampleLevel (width : Nat) (p : Ports) : Level := (p.now width).nextLevel

/-! ### Units, and the end of an action -/

/-- The unit of an instance number. -/
def State.unit (s : State) (k : Nat) : Option CodecUnit := Table.find k s.units

/-- Write a unit's registers. -/
def State.setUnit (s : State) (k : Nat) (u : CodecUnit) : State :=
  { s with units := Table.insert k u s.units }

/-- The ports after a command's calls. -/
def State.setPorts (s : State) (p : Ports) : State := { s with ports := p }

/-- Note an event (R291). -/
def State.logEvent (s : State) (e : Option Event) : State :=
  { s with events := s.events ++ e.toList }

/-- The host's next action. -/
def State.nextAction (s : State) : Option HostAction := s.host.head?

/-- The action at the head is done. -/
def State.dropAction (s : State) : State := { s with host := s.host.tail }

/-- The command at the head is done and returns its response (R126). -/
def State.retire (s : State) (r : Response) : State :=
  { s with host := s.host.tail, responses := s.responses ++ [r] }

/-- `raise IllegalCommand(word)` (R123, R292): the host gets the refusal instead of a response; no unit
changes, no port is called, no data byte is consumed. The block has no other exception, and no return
from one (R290, R295, R296; log 7). -/
def State.refuseCommand (s : State) (word : CommandWord) : State :=
  (s.logEvent (some .illegalCommand)).retire (.illegalCommand word)

/-- Issue a command word with its data phase before everything pending. -/
def State.issue (s : State) (word : CommandWord) (data : List Byte) : State :=
  { s with host := .command word data :: s.host }

end Sys2Proof.Machine
end

