-- ==== Sys2Proof/Machine/Operands.lean ====
section
/-! DEFINITION. The operand forms: the instance a command acts on, and its data phase
(spec/30_encoding.md R120, R121, R123). -/

namespace Sys2Proof.Machine

/-- The transmitter `INST` names, if it names one (R123). -/
def State.findTx (s : State) (inst : Nat) : Option (TxConfig × Tx) :=
  match s.unit inst with
  | some (.tx c x) => some (c, x)
  | some (.rx _ _) => none
  | none => none

/-- The receiver `INST` names, if it names one (R123). -/
def State.findRx (s : State) (inst : Nat) : Option (RxConfig × Rx) :=
  match s.unit inst with
  | some (.rx c r) => some (c, r)
  | some (.tx _ _) => none
  | none => none

/-- The bytes the host drives on the data port with the command at the head (R80). -/
def State.dataPort (s : State) : List Byte :=
  match s.nextAction with
  | some (.command _ data) => data
  | some (.construct _ _ _) => []
  | none => []

/-- The data phase `D = [D[0], ..., D[N-1]]` (R83, R121). A byte the host does not drive is free
(log 11). -/
def State.dataPhase (s : State) (n : Nat) : List Byte :=
  (List.range n).map
    (fun i => (s.dataPort[i]?).getD (Config.undrivenByte s.responses.length i))

/-- The kind of unit a command acts on, and the instance it names; none for the checksum commands
(R122). -/
def txOperand : Instr → Option Nat
  | .txSendData k _ => some k
  | .txWrite k _ => some k
  | .rxPoll _ => none
  | .rxPollBlocking _ => none
  | .rxHasData _ => none
  | .rxReadInto _ _ => none
  | .rxReadSize _ => none
  | .chkCrc8 _ => none
  | .chkXor _ => none

/-- The receiver instance a receiver command names (R122). -/
def rxOperand : Instr → Option Nat
  | .txSendData _ _ => none
  | .txWrite _ _ => none
  | .rxPoll k => some k
  | .rxPollBlocking k => some k
  | .rxHasData k => some k
  | .rxReadInto k _ => some k
  | .rxReadSize k => some k
  | .chkCrc8 _ => none
  | .chkXor _ => none

end Sys2Proof.Machine
end

