-- ==== Sys2Proof/Machine/Construct.lean ====
section
/-! DEFINITION. Reset is construction (spec/70_reset_and_hazards.md R330 to R333): the legal
configurations (R14) and the reset values of each unit (R60, R61). -/

namespace Sys2Proof.Machine

/-- `BIT_RATE` in 1..6000 and `2^W > 4 * START_US` (R14). -/
def clockLegal (width bitRate : Nat) : Bool :=
  decide (1 ≤ bitRate) && decide (bitRate ≤ 6000) && decide (4 * startUs bitRate < 2 ^ width)

/-- A capacity in 1..65535 (R14). -/
def capLegal (cap : Nat) : Bool := decide (1 ≤ cap) && decide (cap ≤ 65535)

/-- R14 for a transmitter's configuration. -/
def TxConfig.legal (width : Nat) (c : TxConfig) : Bool :=
  clockLegal width c.bitRate && capLegal c.cap && decide (shortCount ≤ c.longCount.toNat)

/-- R14 for a receiver's configuration. -/
def RxConfig.legal (width : Nat) (c : RxConfig) : Bool :=
  clockLegal width c.bitRate && capLegal c.cap

/-- R14 for a construction argument. -/
def UnitConfig.legal (width : Nat) : UnitConfig → Bool
  | .tx c => c.legal width
  | .rx c => c.legal width

/-- The pin a construction argument binds. -/
def UnitConfig.pin : UnitConfig → Nat
  | .tx c => c.pin
  | .rx c => c.pin

/-- The pin a unit is bound to. -/
def CodecUnit.pin : CodecUnit → Nat
  | .tx c _ => c.pin
  | .rx c _ => c.pin

/-- No other instance is bound to the pin (R14, R302). -/
def State.pinFree (s : State) (inst pin : Nat) : Bool :=
  s.units.all (fun entry => decide (entry.1 = inst) || decide (entry.2.pin ≠ pin))

/-- A transmitter after construction (R60): `TXPIN` 0, the rest drawn. -/
def Tx.constructed (width : Nat) (c : TxConfig) (draw : ResetDraw) : Tx :=
  { txBuf := Memory.drawn c.cap draw.bytes, tLast := clockValue width draw.clock, txPin := false }

/-- A receiver after construction (R61): IDLE, counters, flag and size 0, the rest drawn. -/
def Rx.constructed (width : Nat) (c : RxConfig) (draw : ResetDraw) : Rx :=
  { state := .idle, prev := draw.level, ref := clockValue width draw.clock, bitCnt := 0, byteCnt := 0,
    rxBuf := Memory.drawn c.cap draw.bytes, ready := false, size := 0 }

/-- A unit after construction. -/
def CodecUnit.constructed (width : Nat) (draw : ResetDraw) : UnitConfig → CodecUnit
  | .tx c => .tx c (Tx.constructed width c draw)
  | .rx c => .rx c (Rx.constructed width c draw)

/-- The direction construction gives the pin (R331, R332). -/
def UnitConfig.direction : UnitConfig → PinDirection
  | .tx _ => .output
  | .rx _ => .input

/-- The unit comes into being, in place of any unit of that number, and its pin's mode is set once
(R330 to R332). -/
def State.placeUnit (s : State) (inst : Nat) (config : UnitConfig) (draw : ResetDraw) : State :=
  (s.setPorts (s.ports.call (.setPinMode config.pin config.direction))).setUnit inst
    (CodecUnit.constructed s.clockWidth draw config)

/-- The host constructs a unit; R14's configurations are refused (log 13). -/
def execConstruct (inst : Nat) (config : UnitConfig) (draw : ResetDraw) (s : State) :
    Host.Outcome State Fault Refusal :=
  if decide (inst < 256) && config.legal s.clockWidth && s.pinFree inst config.pin then
    .next (s.placeUnit inst config draw).dropAction
  else .refused (.illegalConfiguration inst)

/-! ### The unit `withFetchWord` places (log 6) -/

/-- A pin no unit is bound to. -/
def State.freshPin (s : State) : Nat :=
  s.units.foldl (fun m entry => max m (entry.2.pin + 1)) 0

/-- The configuration of the spec's own vectors (95_test_vectors.md, opening): 3000 bit/s, normal link,
CRC8, 8 bytes. -/
def vectorTxConfig (pin : Nat) : TxConfig :=
  { bitRate := 3000, link := .normal, chkMode := .crc8, cap := 8,
    longCount := BitVec.ofNat 16 (shortCount + Config.longExtra % (65536 - shortCount)), pin := pin }

/-- The same for a receiver. -/
def vectorRxConfig (pin : Nat) : RxConfig :=
  { bitRate := 3000, chkMode := .crc8, cap := 8, pin := pin }

/-- The draws of that unit: free. -/
def freeResetDraw (cap : Nat) : ResetDraw :=
  { bytes := (List.range cap).map Config.resetByte, clock := Config.resetClock,
    level := Config.resetLevel }

/-- Construct the unit a command needs where the number names none. -/
def State.provideUnit (s : State) (i : Instr) : State :=
  match txOperand i, rxOperand i with
  | some k, _ =>
    match s.unit k with
    | some _ => s
    | none => s.placeUnit k (.tx (vectorTxConfig s.freshPin)) (freeResetDraw 8)
  | none, some k =>
    match s.unit k with
    | some _ => s
    | none => s.placeUnit k (.rx (vectorRxConfig s.freshPin)) (freeResetDraw 8)
  | none, none => s

/-- Give the machine a word to run next: the unit it needs, and the word with a data phase of `N` zero
bytes (R125). -/
def State.placeWord (s : State) (word : CommandWord) : State :=
  match decode word with
  | .command i => (s.provideUnit i).issue word (List.replicate (countField word) 0)
  | .rejected _ => s.issue word []

end Sys2Proof.Machine
end

