-- ==== Sys2Proof/Machine/Checksum.lean ====
section
/-! DEFINITION. The checksum generator and its two commands (spec/42_checksum.md). -/

namespace Sys2Proof.Machine

/-- One shift of CRC8: polynomial 0x8C, least significant bit first (R260). -/
def crcShift (c : Byte) : Byte := if c.getLsbD 0 then (c >>> 1) ^^^ 0x8C else c >>> 1

/-- `n` shifts. -/
def crcShifts : Nat → Byte → Byte
  | 0, c => c
  | n + 1, c => crcShifts n (crcShift c)

/-- One byte of CRC8: XOR it in, then eight shifts (R260). -/
def crcByte (c b : Byte) : Byte := crcShifts 8 (c ^^^ b)

/-- `crc8(s)`: initial value 0x00, no final XOR (R260, D23). -/
def crc8 (s : List Byte) : Byte := s.foldl crcByte 0

/-- `xor8(s)`, 0x00 for the empty sequence (R261, D24). -/
def xor8 (s : List Byte) : Byte := s.foldl (· ^^^ ·) 0

/-- `checksum(mode, s)`; not called for NONE, which appends no byte (R262). -/
def checksum : ChkMode → List Byte → Option Byte
  | .noCheck, _ => none
  | .crc8, s => some (crc8 s)
  | .xor, s => some (xor8 s)

/-- `chkOK(f)`, the receiver's test of a whole frame (R190, R264). -/
def chkOk : ChkMode → List Byte → Bool
  | .noCheck, _ => true
  | .crc8, f => decide (crc8 f = 0)
  | .xor, f => decide (xor8 f = 0)

/-- CHK_CRC8 (R265). -/
def execChkCrc8 (n : Nat) (s : State) : Host.Outcome State Fault Refusal :=
  .next (s.retire (.checksum (crc8 (s.dataPhase n))))

/-- CHK_XOR (R266). -/
def execChkXor (n : Nat) (s : State) : Host.Outcome State Fault Refusal :=
  .next (s.retire (.checksum (xor8 (s.dataPhase n))))

end Sys2Proof.Machine
end

