-- ==== Sys2Proof/Machine/Flags.lean ====
section
/-! DEFINITION. The one flag, `READY` (spec/10_state.md R51, R56), and the exposed size. Exactly three
things write the flag: an accepting close, a start acceptance and RX_HAS_DATA. -/

namespace Sys2Proof.Machine

/-- An accepting close: `SIZE <- BYTECNT - CS`, `READY <- 1` (R194). -/
def Rx.expose (mode : ChkMode) (r : Rx) : Rx :=
  { r with size := r.byteCnt - BitVec.ofNat 16 (checksumSize mode), ready := true }

/-- `READY <- 0` (R198, R211). -/
def Rx.clearReady (r : Rx) : Rx := { r with ready := false }

end Sys2Proof.Machine
end

