-- ==== Sys2Proof/Machine/Receiver.lean ====
section
/-! DEFINITION. One receiver step, the body of RX_POLL (spec/41_receive.md section 1, R190 to R208). -/

namespace Sys2Proof.Machine

/-- What a step leaves: the registers, the value it returns (R207) and the event it met (R291). -/
structure StepResult where
  rx : Rx
  ret : Count
  event : Option Event
deriving DecidableEq, Repr

/-- The level as a bit: 1 for high. -/
def levelBit (level : Level) : Byte := if level then 1 else 0

/-- `(byte >> 1) | (L << 7)` (R201). -/
def shiftIn (b : Byte) (level : Level) : Byte := (b >>> 1) ||| (levelBit level <<< 7)

/-- The frame a silence close validates: the complete bytes (R193). -/
def Rx.frame (r : Rx) : List Byte := Memory.readBytes r.rxBuf 0 r.byteCnt.toNat

/-- Silence close (R193 to R196): `PREV` and `REF` are not written. -/
def closeFrame (c : RxConfig) (r : Rx) : StepResult :=
  let closed := { r with state := .idle }
  if r.byteCnt.toNat < 2 then ⟨closed, 0, some .shortFrame⟩
  else if chkOk c.chkMode r.frame then
    ⟨closed.expose c.chkMode, (closed.expose c.chkMode).size, none⟩
  else ⟨closed, 0, some .checksumMismatch⟩

/-- Start acceptance (R198, R200). -/
def acceptStart (c : RxConfig) (t : Nat) (r : Rx) : Rx :=
  Rx.clearReady
    { r with
      state := .framing, ref := t, byteCnt := 0, bitCnt := 0, rxBuf := Memory.clear c.cap r.rxBuf }

/-- Byte close and overflow guard (R203), on the counters after a bit. -/
def closeByte (c : RxConfig) (r : Rx) : Rx × Option Event :=
  let counted := { r with bitCnt := 0, byteCnt := r.byteCnt + 1 }
  if r.byteCnt.toNat + 1 = c.cap then ({ counted with state := .idle }, some .rxOverflow)
  else (counted, none)

/-- A bit (R201): shift the level into the byte being received and count it. -/
def acceptBit (c : RxConfig) (t : Nat) (level : Level) (r : Rx) : Rx × Option Event :=
  let i := r.byteCnt.toNat
  let shifted :=
    { r with ref := t, rxBuf := Memory.write r.rxBuf i (shiftIn (Memory.read r.rxBuf i) level) }
  if r.bitCnt.toNat + 1 = 8 then closeByte c shifted
  else ({ shifted with bitCnt := r.bitCnt + 1 }, none)

/-- The classification of an edge by `STATE` (R198 to R203, R205). -/
def classifyEdge (c : RxConfig) (t : Nat) (level : Level) (e : Nat) (r : Rx) : Rx × Option Event :=
  match r.state with
  | .edgeCandidate =>
    if inWin e (startUs c.bitRate) then (acceptStart c t r, none)
    else ({ r with state := .idle, ref := t }, some .timingNoiseStart)
  | .framing =>
    if inWin e (frameUs c.bitRate) then acceptBit c t level r
    else (r, some .timingNoiseBit)
  | .idle => ({ r with ref := t }, none)

/-- Edge-catch (R204). -/
def edgeCatch (t : Nat) (level : Level) (r : Rx) : Rx :=
  if r.state = .idle ∧ level = true then { r with state := .edgeCandidate, ref := t } else r

/-- The processing of an edge (R197, R204, R206). -/
def processEdge (c : RxConfig) (t : Nat) (level : Level) (e : Nat) (r : Rx) : StepResult :=
  let classified := classifyEdge c t level e r
  ⟨{ edgeCatch t level classified.1 with prev := level }, 0, classified.2⟩

/-- `STEP()` on a sample `(t, level)` (R190). -/
def rxStep (width : Nat) (c : RxConfig) (t : Nat) (level : Level) (r : Rx) : StepResult :=
  let e := elapsed width t r.ref
  if r.state = .framing ∧ isSilence e c.bitRate = true then closeFrame c r
  else if level ≠ r.prev then processEdge c t level e r
  else ⟨r, 0, none⟩

/-- Every index of `RXBUF` this step touches is below `RX_CAP` (R82, R87; log 12). -/
def rxInRange (width : Nat) (c : RxConfig) (t : Nat) (level : Level) (r : Rx) : Bool :=
  match r.state with
  | .idle => true
  | .edgeCandidate => true
  | .framing =>
    let e := elapsed width t r.ref
    if isSilence e c.bitRate then decide (r.byteCnt.toNat < 2) || decide (r.byteCnt.toNat ≤ c.cap)
    else if level ≠ r.prev ∧ inWin e (frameUs c.bitRate) = true then decide (r.byteCnt.toNat < c.cap)
    else true

end Sys2Proof.Machine
end

