-- ==== Sys2Proof/Machine/Receive.lean ====
section
/-! DEFINITION. The receiver commands (spec/41_receive.md section 2). -/

namespace Sys2Proof.Machine

/-- Run one receiver step of a unit: one sample of the ports, the step, then what the command makes of
its result (R190, R191). A step that would leave the buffer faults (log 12). -/
def stepUnit (inst : Nat) (c : RxConfig) (r : Rx) (s : State) (finish : StepResult → State → State) :
    Host.Outcome State Fault Refusal :=
  let t := s.ports.nextClock s.clockWidth
  let level := s.ports.sampleLevel s.clockWidth
  if rxInRange s.clockWidth c t level r then
    let res := rxStep s.clockWidth c t level r
    .next (finish res
      (((s.setPorts (s.ports.sample s.clockWidth c.pin)).setUnit inst (.rx c res.rx)).logEvent
        res.event))
  else .fault (.bufferIndexOutOfRange inst r.byteCnt.toNat)

/-- RX_POLL (R209): the step's size is the response. -/
def execRxPoll (inst : Nat) (s : State) : Host.Outcome State Fault Refusal :=
  match s.findRx inst with
  | some (c, r) => stepUnit inst c r s (fun res s' => s'.retire (.size res.ret))
  | none => .next (s.refuseCommand (encode (.rxPoll inst)))

/-- RX_POLL_BLOCKING (R210): a machine step is one inner step. While `STATE = FRAMING` the command stays
at the head and runs again; else it returns the last size (log 10). -/
def execRxPollBlocking (inst : Nat) (s : State) : Host.Outcome State Fault Refusal :=
  match s.findRx inst with
  | some (c, r) =>
    stepUnit inst c r s
      (fun res s' => if res.rx.state = .framing then s' else s'.retire (.size res.ret))
  | none => .next (s.refuseCommand (encode (.rxPollBlocking inst)))

/-- RX_HAS_DATA (R211): a step, its size discarded, then test and clear `READY`. -/
def execRxHasData (inst : Nat) (s : State) : Host.Outcome State Fault Refusal :=
  match s.findRx inst with
  | some (c, r) =>
    stepUnit inst c r s
      (fun res s' => (s'.setUnit inst (.rx c res.rx.clearReady)).retire (.hasData res.rx.ready))
  | none => .next (s.refuseCommand (encode (.rxHasData inst)))

/-- RX_READ_INTO (R212). -/
def execRxReadInto (inst n : Nat) (s : State) : Host.Outcome State Fault Refusal :=
  match s.findRx inst with
  | some (c, r) =>
    if c.cap < n then .next ((s.logEvent (some .readTooLarge)).retire (.readInto false []))
    else .next (s.retire (.readInto true (Memory.readBytes r.rxBuf 0 n)))
  | none => .next (s.refuseCommand (encode (.rxReadInto inst n)))

/-- RX_READ_SIZE (R213). -/
def execRxReadSize (inst : Nat) (s : State) : Host.Outcome State Fault Refusal :=
  match s.findRx inst with
  | some (_, r) => .next (s.retire (.size r.size))
  | none => .next (s.refuseCommand (encode (.rxReadSize inst)))

end Sys2Proof.Machine
end

