-- ==== Sys2Proof/Machine/Transmit.lean ====
section
/-! DEFINITION. The transmitter: the wire segments of a frame (spec/30_encoding.md R111 to R115) and
the commands TX_WRITE and TX_SEND_DATA (spec/40_transmit.md). -/

namespace Sys2Proof.Machine

/-- A segment: the pin held at a level for a nominal duration (R110, part A). -/
structure Segment where
  level : Level
  us : Nat
deriving DecidableEq, Repr

/-- One preamble pulse (R111). -/
def preamblePulse (bitRate : Nat) : List Segment :=
  [⟨true, frameUs bitRate⟩, ⟨false, frameUs bitRate⟩]

/-- The start marker (R112). -/
def startMarker (bitRate : Nat) : List Segment :=
  [⟨true, startUs bitRate⟩, ⟨false, halfUs bitRate⟩]

/-- The bit cell of a bit: its complement, then the bit (R113). -/
def bitCell (bitRate : Nat) (b : Bool) : List Segment :=
  [⟨!b, halfUs bitRate⟩, ⟨b, halfUs bitRate⟩]

/-- The bits of a byte, bit 0 first (R114). -/
def byteBits (d : Byte) : List Bool := (List.range 8).map (fun j => d.getLsbD j)

/-- The bits of a frame in wire order (R114). -/
def frameBits (frame : List Byte) : List Bool := frame.flatMap byteBits

/-- The segments of a transmission with `pulses` preamble pulses (R111 to R114). -/
def txSegments (bitRate pulses : Nat) (frame : List Byte) : List Segment :=
  (List.replicate pulses (preamblePulse bitRate)).flatten
    ++ startMarker bitRate
    ++ (frameBits frame).flatMap (bitCell bitRate)

/-- `P`, the number of preamble pulses (R151). -/
def preambleCount (width : Nat) (c : TxConfig) (tLast t0 : Nat) : Nat :=
  if c.link = .poor ∧ cooldownUs < elapsed width t0 tLast then c.longCount.toNat else shortCount

/-- `writePin(v); TXPIN <- v` (R150). -/
def drivePin (pin : Nat) (level : Level) (run : Tx × Ports) : Tx × Ports :=
  ({ run.1 with txPin := level }, run.2.writePin pin level)

/-- One segment: drive the pin, then busy-wait (R150). -/
def emit (pin : Nat) (run : Tx × Ports) (seg : Segment) : Tx × Ports :=
  let driven := drivePin pin seg.level run
  (driven.1, driven.2.busyWait seg.us)

/-- The body of TX_WRITE (R150): one clock sample, `TLAST`, the segments, then the end level. -/
def transmit (width : Nat) (c : TxConfig) (x : Tx) (frame : List Byte) (p : Ports) : Tx × Ports :=
  let t0 := p.nextClock width
  let pulses := preambleCount width c x.tLast t0
  let begun : Tx × Ports := ({ x with tLast := t0 }, p.now width)
  drivePin c.pin false ((txSegments c.bitRate pulses frame).foldl (emit c.pin) begun)

/-- `TXBUF` with the payload and, in a checksum mode, its checksum byte behind it (R156). -/
def buildFrame (c : TxConfig) (payload : List Byte) (buf : Memory) : Memory :=
  let filled := Memory.writeBytes buf 0 payload
  match checksum c.chkMode (Memory.readBytes filled 0 payload.length) with
  | some sum => Memory.write filled payload.length sum
  | none => filled

/-- TX_WRITE (R150). `TXBUF` is neither read nor written. -/
def execTxWrite (inst n : Nat) (s : State) : Host.Outcome State Fault Refusal :=
  match s.findTx inst with
  | some (c, x) =>
    let run := transmit s.clockWidth c x (s.dataPhase n) s.ports
    .next (((s.setPorts run.2).setUnit inst (.tx c run.1)).retire .write)
  | none => .next (s.refuseCommand (encode (.txWrite inst n)))

/-- TX_SEND_DATA (R156); an oversized payload is rejected with no other effect (R157). -/
def execTxSendData (inst n : Nat) (s : State) : Host.Outcome State Fault Refusal :=
  match s.findTx inst with
  | some (c, x) =>
    if c.cap < n + checksumSize c.chkMode then
      .next ((s.logEvent (some .sendTooLarge)).retire (.sendData false))
    else
      let buf := buildFrame c (s.dataPhase n) x.txBuf
      let frame := Memory.readBytes buf 0 (n + checksumSize c.chkMode)
      let run := transmit s.clockWidth c { x with txBuf := buf } frame s.ports
      .next (((s.setPorts run.2).setUnit inst (.tx c run.1)).retire (.sendData true))
  | none => .next (s.refuseCommand (encode (.txSendData inst n)))

end Sys2Proof.Machine
end

