-- ==== Sys2Proof/Machine/Dispatch.lean ====
section
/-! DEFINITION. One meaning per command (spec/30_encoding.md R122). -/

namespace Sys2Proof.Machine

def exec (i : Instr) (s : State) : Host.Outcome State Fault Refusal :=
  match i with
  | .txSendData inst n => Sys2Proof.Machine.execTxSendData inst n s
  | .txWrite inst n => Sys2Proof.Machine.execTxWrite inst n s
  | .rxPoll inst => Sys2Proof.Machine.execRxPoll inst s
  | .rxPollBlocking inst => Sys2Proof.Machine.execRxPollBlocking inst s
  | .rxHasData inst => Sys2Proof.Machine.execRxHasData inst s
  | .rxReadInto inst n => Sys2Proof.Machine.execRxReadInto inst n s
  | .rxReadSize inst => Sys2Proof.Machine.execRxReadSize inst s
  | .chkCrc8 n => Sys2Proof.Machine.execChkCrc8 n s
  | .chkXor n => Sys2Proof.Machine.execChkXor n s

end Sys2Proof.Machine
end

