-- ==== Sys2Proof/Machine/Step.lean ====
section
/-! DEFINITION. One step: the host's next action. -/

namespace Sys2Proof.Machine

/-- The host's next action (R40, R88): a construction, a command word, or none. Between actions the
block does nothing (R304; log 19). A word the decoder rejects is refused (R123, R292). -/
def step (s : State) : Host.Outcome State Fault Refusal :=
  match s.nextAction with
  | none => .next s
  | some (.construct inst config draw) => execConstruct inst config draw s
  | some (.command word _) =>
    match decode word with
    | .command i => exec i s
    | .rejected _ => .next (s.refuseCommand word)

/-- `s` with the instruction whose bits are `w` as the next thing the host issues (log 6). -/
def State.withFetchWord (s : State) (nbits w : Nat) : State :=
  match tableWord nbits w with
  | some word => s.placeWord word
  | none => s

end Sys2Proof.Machine
end

