-- ==== Sys2Proof/Safety.lean ====
section
/-! DEFINITION. What a sound state is: the invariants of spec/10_state.md R63 with what else every step
keeps (R44, R48, R49, R50, R52; spec/41_receive.md R214), in the terms the statements use. -/

namespace Sys2Proof.Machine

/-- `READY = 1` says that the last frame event was a successful close and that no start acceptance has
happened since (R63 (5)): the receiver is not FRAMING, and the frame is still in `RXBUF`, whole and
valid, with `SIZE` its payload size (R193, R194). -/
def Rx.readyMeansFrame (c : RxConfig) (r : Rx) : Prop :=
  r.ready = true →
    r.state ≠ .framing ∧ 2 ≤ r.byteCnt.toNat ∧ r.byteCnt.toNat < c.cap ∧
      r.size.toNat + checksumSize c.chkMode = r.byteCnt.toNat ∧ chkOk c.chkMode r.frame = true

/-- The invariant of a receiver. -/
structure Rx.Sound (width : Nat) (c : RxConfig) (r : Rx) : Prop where
  /-- R14. -/
  legal : c.legal width = true
  /-- `REF` has W bits (R46). -/
  refWidth : r.ref < 2 ^ width
  /-- `BYTECNT` is 0..RX_CAP (R46). -/
  countBound : r.byteCnt.toNat ≤ c.cap
  /-- In FRAMING the slot `RXBUF[BYTECNT]` exists (R63 (2)). -/
  slotExists : r.state = .framing → r.byteCnt.toNat < c.cap
  /-- In EDGE_CANDIDATE the next edge is falling (R214). -/
  candidateHigh : r.state = .edgeCandidate → r.prev = true
  /-- The bound of `SIZE` (R52), 0 before the first accepted frame (R61). -/
  sizeBound : r.size = 0 ∨ r.size.toNat + checksumSize c.chkMode + 1 ≤ c.cap
  /-- R63 (5). -/
  readyFrame : r.readyMeansFrame c
  bufferWf : Memory.wf r.rxBuf
  /-- R63 (3). -/
  bufferWithin : Memory.within c.cap r.rxBuf

/-- The invariant of a transmitter. -/
structure Tx.Sound (width : Nat) (c : TxConfig) (x : Tx) : Prop where
  /-- R14. -/
  legal : c.legal width = true
  /-- `TLAST` has W bits (R42). -/
  lastWidth : x.tLast < 2 ^ width
  /-- Between commands the pin is low (R45, R154). -/
  pinLow : x.txPin = false
  bufferWf : Memory.wf x.txBuf
  /-- R63 (3). -/
  bufferWithin : Memory.within c.cap x.txBuf

/-- The invariant of a unit. -/
def CodecUnit.Sound (width : Nat) : CodecUnit → Prop
  | .tx c x => x.Sound width c
  | .rx c r => r.Sound width c

/-- The invariant of the machine: the unit table is canonical with 8-bit instance numbers (R120), every
unit is sound, and no two units share a pin (R14, R302). -/
structure State.Sound (s : State) : Prop where
  tableSorted : Table.sorted s.units
  instances : ∀ entry ∈ s.units, entry.1 < 256
  units : ∀ entry ∈ s.units, entry.2.Sound s.clockWidth
  pinsApart : ∀ a ∈ s.units, ∀ b ∈ s.units, a.2.pin = b.2.pin → a.1 = b.1

/-- The configuration record of a unit. -/
def CodecUnit.config : CodecUnit → UnitConfig
  | .tx c _ => .tx c
  | .rx c _ => .rx c

/-- The machine stopped with a fault. -/
def Faults (o : Host.Outcome State Fault Refusal) : Prop := ∃ f, o = .fault f

/-! ### Words the statements use -/

/-- The command at the head has ended with a response (R126). -/
def Answered (s t : State) (r : Response) : Prop :=
  t.host = s.host.tail ∧ t.responses = s.responses ++ [r]

/-- The clock's width and every unit but `k` are as before (R8, R95). -/
def OthersKept (k : Nat) (s t : State) : Prop :=
  t.clockWidth = s.clockWidth ∧ ∀ j, j ≠ k → t.unit j = s.unit j

/-- Nothing but the command's end and the events: no unit and no port changed (R89). -/
def NothingTouched (s t : State) : Prop :=
  t.clockWidth = s.clockWidth ∧ t.units = s.units ∧ t.ports = s.ports

/-- The word was refused (R292): the refusal went to the host instead of a response, and nothing else
happened. -/
def RefusedWord (s t : State) (word : CommandWord) : Prop :=
  Answered s t (.illegalCommand word) ∧ NothingTouched s t ∧ t.events = s.events ++ [.illegalCommand]

/-- The ports after one receiver sample `(t, level)` at the pin: host time went on by the drawn gap, one
clock draw and one level draw are used, two calls are noted, the clock's first
(R191; log 18). -/
def SampledOnce (pin : Nat) (s t : State) : Prop :=
  t.ports.time = s.ports.time + s.ports.nextGap ∧ t.ports.gaps = s.ports.gaps.tail ∧
    t.ports.levels = s.ports.levels.tail ∧ t.ports.delays = s.ports.delays ∧
    t.ports.trace = s.ports.trace ++
      [.now (s.ports.nextClock s.clockWidth), .readPin pin (s.ports.sampleLevel s.clockWidth)]

/-- The result of the receiver step that the next sample of `s` gives. -/
def stepResult (s : State) (c : RxConfig) (r : Rx) : StepResult :=
  rxStep s.clockWidth c (s.ports.nextClock s.clockWidth) (s.ports.sampleLevel s.clockWidth) r

/-- In FRAMING the accumulation slot exists (R63 (2)). -/
def Rx.slotFree (c : RxConfig) (r : Rx) : Prop := r.state = .framing → r.byteCnt.toNat < c.cap

/-- The port calls of a list of segments with given actual durations (R150, R153). -/
def segmentTrace (pin : Nat) : List Segment → List Nat → List PortCall
  | seg :: segs, d :: ds => .writePin pin seg.level :: .busyWait seg.us d :: segmentTrace pin segs ds
  | _, _ => []

/-- What a transmission of `frame` by the transmitter `k` leaves (R150 to R154): `TLAST` is the one clock
sample, `TXPIN` is 0, the trace is the frame's segments with some actual durations and the end level,
and host time went on by the gap before the sample and those durations. -/
def Transmitted (k : Nat) (c : TxConfig) (x : Tx) (frame : List Byte) (s t : State) : Prop :=
  let t0 := s.ports.nextClock s.clockWidth
  let pulses :=
    if c.link = .poor ∧ 400000 < elapsed s.clockWidth t0 x.tLast then c.longCount.toNat else 10
  let segs := txSegments c.bitRate pulses frame
  t.unit k = some (.tx c { x with tLast := t0, txPin := false }) ∧
    ∃ actual : List Nat, actual.length = segs.length ∧
      t.ports.trace = s.ports.trace ++ [.now t0] ++ segmentTrace c.pin segs actual
        ++ [.writePin c.pin false] ∧
      t.ports.time = s.ports.time + s.ports.nextGap + actual.sum ∧
      t.ports.gaps = s.ports.gaps.tail ∧ t.ports.levels = s.ports.levels

/-- A receiver's acceptance in a step: silence in FRAMING with two bytes or more and a good checksum
(R192, R193). -/
def Accepts (width : Nat) (c : RxConfig) (t : Nat) (r : Rx) : Prop :=
  r.state = .framing ∧ startUs c.bitRate < elapsed width t r.ref ∧ 2 ≤ r.byteCnt.toNat ∧
    chkOk c.chkMode r.frame = true

/-- The line's level at the start of each segment of a transmission that begins at a host time with
nominal durations, and at its end (R111 to R116). -/
def lineSamples (start : Nat) : List Segment → List (Nat × Level)
  | [] => [(start, false)]
  | seg :: rest => (start, seg.level) :: lineSamples (start + seg.us) rest

/-- A receiver fed with samples of the line, one step each. -/
def feed (width : Nat) (c : RxConfig) (r : Rx) (samples : List (Nat × Level)) : Rx :=
  samples.foldl (fun q sample => (rxStep width c (clockValue width sample.1) sample.2 q).rx) r

/-- The nominal duration of segments (R341). -/
def nominalUs (segs : List Segment) : Nat := (segs.map Segment.us).sum

end Sys2Proof.Machine
end

