-- ==== Sys2Proof/Certificates/Slice0/Obligations.lean ====
section
/-! DEFINITION. The statements for the provers, in the order of the spec: words, construction, timing,
checksum, transmitter, receiver step, receiver commands, the whole machine. -/

open Sys2Proof Sys2Proof.Machine

/-! ### Command words (spec/30_encoding.md) -/

/-- The words of R127's examples decode to the commands they are written for, and the words that
95_test_vectors.md section 2.6 lists as illegal by their bits are rejected by name. -/
def Obligations.SpecWordsDecodeAsWritten : Prop :=
  decode 0x01000004 = .command (.txSendData 0 4) ∧
  decode 0x02000001 = .command (.txWrite 0 1) ∧
  decode 0x10010000 = .command (.rxPoll 1) ∧
  decode 0x11010000 = .command (.rxPollBlocking 1) ∧
  decode 0x12010000 = .command (.rxHasData 1) ∧
  decode 0x13010004 = .command (.rxReadInto 1 4) ∧
  decode 0x14010000 = .command (.rxReadSize 1) ∧
  decode 0x20000009 = .command (.chkCrc8 9) ∧
  decode 0x21000002 = .command (.chkXor 2) ∧
  decode 0x00000000 = .rejected .unknownOpcode ∧
  decode 0x03000001 = .rejected .unknownOpcode ∧
  decode 0x15010000 = .rejected .unknownOpcode ∧
  decode 0xFF010000 = .rejected .unknownOpcode ∧
  decode 0x10010001 = .rejected .nonzeroCount ∧
  decode 0x14010002 = .rejected .nonzeroCount ∧
  decode 0x20010000 = .rejected .nonzeroInstance ∧
  decode 0x21050003 = .rejected .nonzeroInstance

/-- Decoding the word of a well-formed command gives the command back, for every command and every
operand value (R120 to R122). -/
def Obligations.DecodeInvertsEncode : Prop :=
  ∀ i : Instr, i.wellFormed = true → decode (encode i) = .command i

/-- A word that decodes is the word of its command, and the command is well-formed: no two words mean
the same (R120 to R125). -/
def Obligations.EncodeInvertsDecode : Prop :=
  ∀ (w : CommandWord) (i : Instr), decode w = .command i → encode i = w ∧ i.wellFormed = true

/-- The decoder follows spec/opcode_table.json: a word that a row's mask and pattern take is a command
of that row's mnemonic, and a word no row takes is rejected (R122 to R124). -/
def Obligations.DecoderFollowsOpcodeTable : Prop :=
  ∀ w : CommandWord,
    (∀ row ∈ opcodeRows, row.matches w = true →
      ∃ i, decode w = .command i ∧ i.mnemonic = row.mnemonic) ∧
    ((∀ row ∈ opcodeRows, row.matches w = false) → ∃ e, decode w = .rejected e)

/-- When the word at the head of the host's actions decodes to a command, a step is `exec` of that
command at that same state: nothing is added around it. -/
def Obligations.StepRunsTheDecodedCommand : Prop :=
  ∀ (s : State) (w : CommandWord) (data : List Byte) (rest : List HostAction) (i : Instr),
    s.host = .command w data :: rest → decode w = .command i → step s = exec i s

/-- A word that is illegal by its bits is refused: the refusal goes to the host instead of a response, and
no unit, no port and no clock is touched (R123, R292). That the machine goes on is log 7. -/
def Obligations.UndecodableWordIsRefused : Prop :=
  ∀ (s : State) (w : CommandWord) (data : List Byte) (rest : List HostAction) (e : DecodeError),
    s.host = .command w data :: rest → decode w = .rejected e →
      ∃ t, step s = .next t ∧ RefusedWord s t w

/-- A command whose `INST` names no unit, or a unit of the wrong kind, is refused in the same way
(R123, R292). -/
def Obligations.WrongUnitIsRefused : Prop :=
  ∀ (s : State) (i : Instr) (k : Nat),
    (txOperand i = some k → (∀ c x, s.unit k ≠ some (.tx c x)) →
      ∃ t, exec i s = .next t ∧ RefusedWord s t (encode i)) ∧
    (rxOperand i = some k → (∀ c r, s.unit k ≠ some (.rx c r)) →
      ∃ t, exec i s = .next t ∧ RefusedWord s t (encode i))

/-- Between commands the block does nothing (R304). That an idle step is a next state is log 19. -/
def Obligations.IdleBlockDoesNothing : Prop :=
  ∀ s : State, s.host = [] → step s = .next s

/-! ### Construction (spec/70_reset_and_hazards.md R330 to R332) -/

/-- Constructing a transmitter with a legal configuration on a free pin gives it R60's reset values:
`TXPIN` 0, `TLAST` and `TXBUF` the draw; its pin is set to output once, and nothing else changes. How a
draw is written down is the model's choice (log 5): its clock value is taken modulo 2^W, and a byte that
a short draw does not list is 0. -/
def Obligations.ConstructedTransmitterHoldsResetValues : Prop :=
  ∀ (s : State) (k : Nat) (c : TxConfig) (draw : ResetDraw) (rest : List HostAction),
    s.host = .construct k (.tx c) draw :: rest → k < 256 → c.legal s.clockWidth = true →
    (∀ j u, s.unit j = some u → j ≠ k → u.pin ≠ c.pin) → Table.sorted s.units →
      ∃ t x, step s = .next t ∧ t.unit k = some (.tx c x) ∧
        x.txPin = false ∧ x.tLast = draw.clock % 2 ^ s.clockWidth ∧
        (∀ i, i < c.cap → Memory.read x.txBuf i = draw.bytes.getD i 0) ∧
        OthersKept k s t ∧ t.host = rest ∧ t.responses = s.responses ∧ t.events = s.events ∧
        t.ports = { s.ports with trace := s.ports.trace ++ [.setPinMode c.pin .output] }

/-- The same for a receiver (R61): IDLE, counters, `READY` and `SIZE` 0, `PREV`, `REF` and `RXBUF` the
draw; it reads neither the pin nor the clock (R332), and nothing else changes. How a draw is written down
is the model's choice (log 5): its clock value is taken modulo 2^W, and a byte that a short draw does not
list is 0. -/
def Obligations.ConstructedReceiverHoldsResetValues : Prop :=
  ∀ (s : State) (k : Nat) (c : RxConfig) (draw : ResetDraw) (rest : List HostAction),
    s.host = .construct k (.rx c) draw :: rest → k < 256 → c.legal s.clockWidth = true →
    (∀ j u, s.unit j = some u → j ≠ k → u.pin ≠ c.pin) → Table.sorted s.units →
      ∃ t r, step s = .next t ∧ t.unit k = some (.rx c r) ∧
        r.state = .idle ∧ r.prev = draw.level ∧ r.ref = draw.clock % 2 ^ s.clockWidth ∧
        r.bitCnt = 0 ∧ r.byteCnt = 0 ∧ r.ready = false ∧ r.size = 0 ∧
        (∀ i, i < c.cap → Memory.read r.rxBuf i = draw.bytes.getD i 0) ∧
        OthersKept k s t ∧ t.host = rest ∧ t.responses = s.responses ∧ t.events = s.events ∧
        t.ports = { s.ports with trace := s.ports.trace ++ [.setPinMode c.pin .input] }

/-- A configuration with `BIT_RATE` outside 1..6000, a capacity outside 1..65535, `LONG_COUNT` below
`SHORT_COUNT`, `2^W <= 4 * START_US`, or a pin another instance has, is refused (R14). -/
def Obligations.IllegalConfigurationIsRefused : Prop :=
  ∀ (s : State) (k : Nat) (draw : ResetDraw) (rest : List HostAction),
    (∀ c : TxConfig, s.host = .construct k (.tx c) draw :: rest →
      (c.bitRate < 1 ∨ 6000 < c.bitRate ∨ c.cap < 1 ∨ 65535 < c.cap ∨ c.longCount.toNat < 10 ∨
        2 ^ s.clockWidth ≤ 4 * startUs c.bitRate ∨
        ∃ e ∈ s.units, e.1 ≠ k ∧ e.2.pin = c.pin) →
      step s = .refused (.illegalConfiguration k)) ∧
    (∀ c : RxConfig, s.host = .construct k (.rx c) draw :: rest →
      (c.bitRate < 1 ∨ 6000 < c.bitRate ∨ c.cap < 1 ∨ 65535 < c.cap ∨
        2 ^ s.clockWidth ≤ 4 * startUs c.bitRate ∨
        ∃ e ∈ s.units, e.1 ≠ k ∧ e.2.pin = c.pin) →
      step s = .refused (.illegalConfiguration k))

/-! ### Timing (spec/00_scope.md R11 to R13, spec/30_encoding.md R116) -/

/-- Each derived constant is its exact quotient rounded half up: the least distance, ties upwards
(R11, decision D3), and at 3000 bit/s they are 333, 167 and 667. -/
def Obligations.DerivedConstantsRoundHalfUp : Prop :=
  (∀ b : Nat, 0 < b →
    (2 * b * frameUs b ≤ 2 * 1000000 + b ∧ 2 * 1000000 + b < 2 * b * (frameUs b + 1)) ∧
    (2 * b * halfUs b ≤ 2 * 500000 + b ∧ 2 * 500000 + b < 2 * b * (halfUs b + 1)) ∧
    (2 * b * startUs b ≤ 2 * 2000000 + b ∧ 2 * 2000000 + b < 2 * b * (startUs b + 1))) ∧
  frameUs 3000 = 333 ∧ halfUs 3000 = 167 ∧ startUs 3000 = 667

/-- At every legal bit rate the windows tell the line code's edges apart: mid-cell edges are accepted,
cell-boundary edges and the next preamble's first two edges are not, its third comes after the silence
close, a start marker is accepted and a preamble pulse is not (R116, R117, D2). -/
def Obligations.WindowsSeparateLineCodeEdges : Prop :=
  ∀ b : Nat, 1 ≤ b → b ≤ 6000 →
    inWin (2 * halfUs b) (frameUs b) = true ∧ inWin (halfUs b) (frameUs b) = false ∧
    inWin (halfUs b + frameUs b) (frameUs b) = false ∧ startUs b < halfUs b + 2 * frameUs b ∧
    inWin (startUs b) (startUs b) = true ∧ inWin (frameUs b) (startUs b) = false ∧
    2 * halfUs b ≤ startUs b

/-- An edge whose elapsed time is less than 75% or more than 125% of the window is never inside it, and
every other one is (R12, decision D4). -/
def Obligations.WindowIsThreeToFiveQuarters : Prop :=
  ∀ e x : Nat, inWin e x = false ↔ (100 * e < 75 * x ∨ 125 * x < 100 * e)

/-- Elapsed time is the unsigned modular difference, for any two clock values and any width, across
wrap-around (R15, R191, R215). -/
def Obligations.ElapsedIsModularDifference : Prop :=
  ∀ W t r : Nat, ((elapsed W t r : Nat) : Int) = ((t : Int) - (r : Int)) % (2 ^ W : Int)

/-! ### Checksum generator (spec/42_checksum.md) -/

/-- Appending its own checksum to any sequence gives checksum 0 (R263). -/
def Obligations.ChecksumVerifiesItself : Prop :=
  ∀ s : List Byte, crc8 (s ++ [crc8 s]) = 0 ∧ xor8 (s ++ [xor8 s]) = 0

/-- The test of the whole frame is the test that its last byte is the checksum of the bytes before it
(R264). -/
def Obligations.FrameCheckComparesLastByte : Prop :=
  ∀ (mode : ChkMode) (payload : List Byte) (last : Byte), mode ≠ .noCheck →
    (chkOk mode (payload ++ [last]) = true ↔ checksum mode payload = some last)

/-- CRC8 tells every single-bit error in a frame (R264's remark, I12). -/
def Obligations.CrcDetectsEverySingleBitError : Prop :=
  ∀ (before after : List Byte) (b : Byte) (j : Nat), j < 8 →
    crc8 (before ++ (b ^^^ (1#8 <<< j)) :: after) ≠ crc8 (before ++ b :: after)

/-- The data phase has `N` bytes, and is the host's bytes where the host drives `N` (R121). Where it drives
more, the model takes the first `N` and ignores the rest, and bytes it does not drive are free: both are
the model's choice (log 11). -/
def Obligations.DataPhaseIsTheHostsBytes : Prop :=
  ∀ (s : State) (w : CommandWord) (data : List Byte) (rest : List HostAction) (n : Nat),
    s.host = .command w data :: rest → (s.dataPhase n).length = n ∧
      (n ≤ data.length → s.dataPhase n = data.take n)

/-- CHK_CRC8 and CHK_XOR run in every state: the response is the checksum of the data phase, and no unit,
port, clock or event is touched (R265, R266). The two checksums are those of R260 (decision D23) and R261
(decision D24): 0 for no bytes; a further byte is XORed in and, for CRC8, followed by eight shifts, bit 0
first, with polynomial 0x8C. -/
def Obligations.ChecksumCommandsAnswer : Prop :=
  ∀ (s : State) (n : Nat),
    (∃ t, exec (.chkCrc8 n) s = .next t ∧ Answered s t (.checksum (crc8 (s.dataPhase n))) ∧
      NothingTouched s t ∧ t.events = s.events) ∧
    (∃ t, exec (.chkXor n) s = .next t ∧ Answered s t (.checksum (xor8 (s.dataPhase n))) ∧
      NothingTouched s t ∧ t.events = s.events) ∧
    (crc8 [] = 0 ∧ ∀ (bytes : List Byte) (b : Byte),
      crc8 (bytes ++ [b]) =
        (fun c : Byte => if c &&& 1 = 1 then (c >>> 1) ^^^ 0x8C else c >>> 1)^[8] (crc8 bytes ^^^ b)) ∧
    (xor8 [] = 0 ∧ ∀ (bytes : List Byte) (b : Byte), xor8 (bytes ++ [b]) = xor8 bytes ^^^ b)

/-! ### Transmitter (spec/40_transmit.md) -/

/-- The segments on the wire, one by one: preamble pulses of one bit period each phase, the start marker,
then for frame bit `i = 8k + j`, bit `j` of byte `k`, its complement and itself for half a bit period
(R111 to R114). -/
def Obligations.WireFollowsLineCode : Prop :=
  ∀ (b pulses : Nat) (frame : List Byte),
    (txSegments b pulses frame).length = 2 * pulses + 2 + 16 * frame.length ∧
    (∀ k, k < pulses →
      (txSegments b pulses frame)[2 * k]? = some ⟨true, frameUs b⟩ ∧
      (txSegments b pulses frame)[2 * k + 1]? = some ⟨false, frameUs b⟩) ∧
    (txSegments b pulses frame)[2 * pulses]? = some ⟨true, startUs b⟩ ∧
    (txSegments b pulses frame)[2 * pulses + 1]? = some ⟨false, halfUs b⟩ ∧
    (∀ k j, k < frame.length → j < 8 →
      (txSegments b pulses frame)[2 * pulses + 2 + 2 * (8 * k + j)]? =
        some ⟨!(frame.getD k 0).getLsbD j, halfUs b⟩ ∧
      (txSegments b pulses frame)[2 * pulses + 2 + 2 * (8 * k + j) + 1]? =
        some ⟨(frame.getD k 0).getLsbD j, halfUs b⟩)

/-- The nominal duration of a transmission is the sum of its busy-waits (R341). -/
def Obligations.NominalTransmitDuration : Prop :=
  ∀ (b pulses : Nat) (frame : List Byte),
    nominalUs (txSegments b pulses frame) =
      2 * pulses * frameUs b + startUs b + halfUs b + 16 * frame.length * halfUs b

/-- TX_WRITE completes for every transmitter: it transmits its data phase and touches neither `TXBUF` nor
any other unit (R150 to R152, R155). The trace, the response list and the event list are the model's
logs of outputs (log 16). -/
def Obligations.TxWriteTransmitsItsData : Prop :=
  ∀ (s : State) (k n : Nat) (c : TxConfig) (x : Tx), s.unit k = some (.tx c x) →
    ∃ t, exec (.txWrite k n) s = .next t ∧ Transmitted k c x (s.dataPhase n) s t ∧
      Answered s t .write ∧ OthersKept k s t ∧ t.events = s.events

/-- TX_WRITE's trace has `2P + 2 + 16N + 1` writePin calls and `2P + 2 + 16N` busyWait calls, `P` being
the preamble count it chose (R153). -/
def Obligations.TxWriteTraceCounts : Prop :=
  ∀ (s t : State) (k n : Nat) (c : TxConfig) (x : Tx), s.unit k = some (.tx c x) →
    exec (.txWrite k n) s = .next t →
      let pulses := preambleCount s.clockWidth c x.tLast (s.ports.nextClock s.clockWidth)
      ∃ calls, t.ports.trace = s.ports.trace ++ calls ∧
        calls.countP (fun p => match p with | .writePin _ _ => true | _ => false)
          = 2 * pulses + 2 + 16 * n + 1 ∧
        calls.countP (fun p => match p with | .busyWait _ _ => true | _ => false)
          = 2 * pulses + 2 + 16 * n

/-- TX_SEND_DATA with a payload that fits completes: `TXBUF` gets the payload and the checksum byte behind
it, its other bytes stay, and that frame is transmitted; `ok` is 1 (R156). The buffer's canonical form
is the invariant's. -/
def Obligations.TxSendDataBuildsAndTransmits : Prop :=
  ∀ (s : State) (k n : Nat) (c : TxConfig) (x : Tx), s.unit k = some (.tx c x) →
    Memory.wf x.txBuf → n + checksumSize c.chkMode ≤ c.cap →
      let frame := s.dataPhase n ++ (checksum c.chkMode (s.dataPhase n)).toList
      ∃ t buf, exec (.txSendData k n) s = .next t ∧
        Transmitted k c { x with txBuf := buf } frame s t ∧
        Memory.wf buf ∧ Memory.readBytes buf 0 (n + checksumSize c.chkMode) = frame ∧
        (∀ i, n + checksumSize c.chkMode ≤ i → Memory.read buf i = Memory.read x.txBuf i) ∧
        Answered s t (.sendData true) ∧ OthersKept k s t ∧ t.events = s.events

/-- An oversized send is rejected: response 0, no clock sample, no pin driven, `TXBUF` and `TLAST`
unchanged (R157, decision D21); event 7 is noted (R291). -/
def Obligations.OversizedSendIsRejected : Prop :=
  ∀ (s : State) (k n : Nat) (c : TxConfig) (x : Tx), s.unit k = some (.tx c x) →
    c.cap < n + checksumSize c.chkMode →
      ∃ t, exec (.txSendData k n) s = .next t ∧ Answered s t (.sendData false) ∧
        NothingTouched s t ∧ t.events = s.events ++ [.sendTooLarge]

/-! ### The receiver step (spec/41_receive.md section 1) -/

/-- An accepting silence close, whatever the level: IDLE, `SIZE` is `BYTECNT - CS`, `READY` is 1, the step
returns `SIZE`, and no other register is written, `PREV` and `REF` among them (R192 to R194, R196). -/
def Obligations.SilenceCloseAcceptsGoodFrame : Prop :=
  ∀ (W t : Nat) (c : RxConfig) (r : Rx) (level : Level), Accepts W c t r →
    ∃ size : Count, size.toNat + checksumSize c.chkMode = r.byteCnt.toNat ∧
      rxStep W c t level r = ⟨{ r with state := .idle, size := size, ready := true }, size, none⟩

/-- A rejecting silence close: IDLE, 0 returned, every other register as before (R193, R195, R196); the
event says why (R291, R293). -/
def Obligations.SilenceCloseRejectsBadFrame : Prop :=
  ∀ (W t : Nat) (c : RxConfig) (r : Rx) (level : Level), r.state = .framing →
    startUs c.bitRate < elapsed W t r.ref → ¬ Accepts W c t r →
      rxStep W c t level r =
        ⟨{ r with state := .idle }, 0,
          some (if r.byteCnt.toNat < 2 then .shortFrame else .checksumMismatch)⟩

/-- A start acceptance: counters 0, every byte of `RXBUF` 0, `READY` 0, FRAMING, `REF` the sample's time,
`SIZE` kept (R198, R200). -/
def Obligations.StartAcceptanceClearsTheFrame : Prop :=
  ∀ (W t : Nat) (c : RxConfig) (r : Rx) (level : Level), r.state = .edgeCandidate →
    level ≠ r.prev → inWin (elapsed W t r.ref) (startUs c.bitRate) = true →
      ∃ q, rxStep W c t level r = ⟨q, 0, none⟩ ∧ q.state = .framing ∧ q.ref = t ∧
        q.byteCnt = 0 ∧ q.bitCnt = 0 ∧ q.ready = false ∧ q.size = r.size ∧ q.prev = level ∧
        ∀ i, Memory.read q.rxBuf i = if i < c.cap then 0 else Memory.read r.rxBuf i

/-- An edge outside the start window returns the receiver to IDLE with `REF` the sample's time and `PREV`
the new level; counters, buffer, `READY` and `SIZE` are unchanged, and the falling edge is not caught
again (R199, R200, R206, R214).
In EDGE_CANDIDATE `PREV` is 1, so the edge is falling (the invariant's `candidateHigh`). The event is the
label of R291 (log 16). -/
def Obligations.NoiseReturnsToIdle : Prop :=
  ∀ (W t : Nat) (c : RxConfig) (r : Rx) (level : Level), r.state = .edgeCandidate → r.prev = true →
    level ≠ r.prev → inWin (elapsed W t r.ref) (startUs c.bitRate) = false →
      rxStep W c t level r =
        ⟨{ r with state := .idle, ref := t, prev := false }, 0, some .timingNoiseStart⟩

/-- An in-window edge in FRAMING is a bit: `REF` is the sample's time, the byte at `BYTECNT` is shifted
right with the level in bit 7 and every other byte stays; below the eighth bit only `BITCNT` counts, at
the eighth the byte closes, and a byte that fills the buffer aborts to IDLE, or to EDGE_CANDIDATE on a
rising edge (R201, R203, R204). -/
def Obligations.InWindowEdgeShiftsABit : Prop :=
  ∀ (W t : Nat) (c : RxConfig) (r : Rx) (level : Level), r.state = .framing → level ≠ r.prev →
    elapsed W t r.ref ≤ startUs c.bitRate → inWin (elapsed W t r.ref) (frameUs c.bitRate) = true →
    Memory.wf r.rxBuf → c.cap ≤ 65535 → r.byteCnt.toNat < c.cap →
      ∃ q ev, rxStep W c t level r = ⟨q, 0, ev⟩ ∧ q.ref = t ∧ q.prev = level ∧
        q.ready = r.ready ∧ q.size = r.size ∧
        (∀ i, Memory.read q.rxBuf i =
          if i = r.byteCnt.toNat then
            (Memory.read r.rxBuf i >>> 1) ||| (if level then 0x80 else 0x00)
          else Memory.read r.rxBuf i) ∧
        (r.bitCnt.toNat < 7 → q.state = .framing ∧ q.bitCnt.toNat = r.bitCnt.toNat + 1 ∧
          q.byteCnt = r.byteCnt ∧ ev = none) ∧
        (r.bitCnt.toNat = 7 → q.bitCnt = 0 ∧ q.byteCnt.toNat = r.byteCnt.toNat + 1 ∧
          (r.byteCnt.toNat + 1 < c.cap → q.state = .framing ∧ ev = none) ∧
          (r.byteCnt.toNat + 1 = c.cap →
            q.state = (if level then .edgeCandidate else .idle) ∧ ev = some .rxOverflow))

/-- An out-of-window edge in FRAMING is ignored: only `PREV` changes (R202). The event is the
label of R291 (log 16). -/
def Obligations.OutOfWindowEdgeIsIgnored : Prop :=
  ∀ (W t : Nat) (c : RxConfig) (r : Rx) (level : Level), r.state = .framing → level ≠ r.prev →
    elapsed W t r.ref ≤ startUs c.bitRate → inWin (elapsed W t r.ref) (frameUs c.bitRate) = false →
      rxStep W c t level r = ⟨{ r with prev := level }, 0, some .timingNoiseBit⟩

/-- An edge in IDLE sets `REF`; a rising one is caught as an edge candidate, a falling one changes
nothing else (R204, R205). -/
def Obligations.IdleEdgeIsCaught : Prop :=
  ∀ (W t : Nat) (c : RxConfig) (r : Rx) (level : Level), r.state = .idle → level ≠ r.prev →
    rxStep W c t level r =
      ⟨{ r with state := if level then .edgeCandidate else .idle, ref := t, prev := level }, 0, none⟩

/-- Every step that sees an edge and does not close ends with `PREV` the new level, in every state and
for every classification (R206). -/
def Obligations.EveryEdgeWritesPrev : Prop :=
  ∀ (W t : Nat) (c : RxConfig) (r : Rx) (level : Level), level ≠ r.prev →
    ¬ (r.state = .framing ∧ startUs c.bitRate < elapsed W t r.ref) →
      (rxStep W c t level r).rx.prev = level

/-- A step that sees no edge and does not close writes nothing and returns 0 (R208). -/
def Obligations.NoChangeStepWritesNothing : Prop :=
  ∀ (W t : Nat) (c : RxConfig) (r : Rx) (level : Level), level = r.prev →
    ¬ (r.state = .framing ∧ startUs c.bitRate < elapsed W t r.ref) →
      rxStep W c t level r = ⟨r, 0, none⟩

/-- A step returns `SIZE` from an accepting close and 0 on every other path (R207, decision D17). -/
def Obligations.OnlyAcceptanceReturnsASize : Prop :=
  ∀ (W t : Nat) (c : RxConfig) (r : Rx) (level : Level),
    (Accepts W c t r → (rxStep W c t level r).ret = (rxStep W c t level r).rx.size) ∧
    (¬ Accepts W c t r → (rxStep W c t level r).ret = 0)

/-- The paths `STATE` takes within one step of a sound receiver, and no other (R55, R216). -/
def Obligations.StateTakesOnlyListedPaths : Prop :=
  ∀ (W t : Nat) (c : RxConfig) (r : Rx) (level : Level), r.Sound W c →
    let q := (rxStep W c t level r).rx
    (r.state = .idle → q.state = .idle ∨
      (q.state = .edgeCandidate ∧ level = true ∧ r.prev = false)) ∧
    (r.state = .edgeCandidate → q = r ∨ q.state = .framing ∨ q.state = .idle) ∧
    (r.state = .framing → q.state = .framing ∨ q.state = .idle ∨
      (q.state = .edgeCandidate ∧ level = true ∧ (rxStep W c t level r).event = some .rxOverflow))

/-- The frame sizes a receiver accepts (R217): `2 <= BYTECNT <= RX_CAP - 1`, so no frame at all when
`RX_CAP <= 2`. -/
def Obligations.AcceptedFrameSizes : Prop :=
  ∀ (W t : Nat) (c : RxConfig) (r : Rx) (level : Level), r.Sound W c →
    (rxStep W c t level r).ret ≠ 0 →
      3 ≤ c.cap ∧ 2 ≤ (rxStep W c t level r).ret.toNat + checksumSize c.chkMode ∧
        (rxStep W c t level r).ret.toNat + checksumSize c.chkMode ≤ c.cap - 1

/-! ### The receiver commands (spec/41_receive.md section 2) -/

/-- RX_POLL completes for every receiver whose accumulation slot exists: one sample, one step, its size
returned (R209). That the trace notes the clock call before the pin call is log 18. -/
def Obligations.RxPollRunsOneStep : Prop :=
  ∀ (s : State) (k : Nat) (c : RxConfig) (r : Rx), s.unit k = some (.rx c r) → r.slotFree c →
    ∃ t, exec (.rxPoll k) s = .next t ∧
      t.unit k = some (.rx c (stepResult s c r).rx) ∧ OthersKept k s t ∧ SampledOnce c.pin s t ∧
      Answered s t (.size (stepResult s c r).ret) ∧
      t.events = s.events ++ (stepResult s c r).event.toList

/-- RX_POLL_BLOCKING completes when its inner step leaves the receiver not FRAMING, with that step's size;
while it is FRAMING the command stays at the head of the host's actions and takes a fresh sample the next
time (R210; one inner step a machine step is log 10, and that the trace notes the clock call before the
pin call is log 18). -/
def Obligations.RxPollBlockingStepsUntilNotFraming : Prop :=
  ∀ (s : State) (k : Nat) (c : RxConfig) (r : Rx), s.unit k = some (.rx c r) → r.slotFree c →
    ∃ t, exec (.rxPollBlocking k) s = .next t ∧
      t.unit k = some (.rx c (stepResult s c r).rx) ∧ OthersKept k s t ∧ SampledOnce c.pin s t ∧
      t.events = s.events ++ (stepResult s c r).event.toList ∧
      ((stepResult s c r).rx.state ≠ .framing → Answered s t (.size (stepResult s c r).ret)) ∧
      ((stepResult s c r).rx.state = .framing → t.host = s.host ∧ t.responses = s.responses)

/-- RX_HAS_DATA completes: one step, then the response is `READY`, and `READY` is 0 (R211). That
the trace notes the clock call before the pin call is log 18. -/
def Obligations.RxHasDataTestsAndClears : Prop :=
  ∀ (s : State) (k : Nat) (c : RxConfig) (r : Rx), s.unit k = some (.rx c r) → r.slotFree c →
    ∃ t, exec (.rxHasData k) s = .next t ∧
      t.unit k = some (.rx c { (stepResult s c r).rx with ready := false }) ∧
      OthersKept k s t ∧ SampledOnce c.pin s t ∧
      Answered s t (.hasData (stepResult s c r).rx.ready) ∧
      t.events = s.events ++ (stepResult s c r).event.toList

/-- RX_READ_INTO completes for every receiver: within the capacity it returns the buffer's first `N`
bytes, above it `ok` is 0; it touches no unit and no port (R212); event 6 is noted for the latter
(R291). -/
def Obligations.RxReadIntoCopiesTheBuffer : Prop :=
  ∀ (s : State) (k n : Nat) (c : RxConfig) (r : Rx), s.unit k = some (.rx c r) →
    ∃ t, exec (.rxReadInto k n) s = .next t ∧ NothingTouched s t ∧
      (n ≤ c.cap → t.events = s.events ∧ ∃ out : List Byte, out.length = n ∧
        (∀ i, i < n → out.getD i 0 = Memory.read r.rxBuf i) ∧ Answered s t (.readInto true out)) ∧
      (c.cap < n → t.events = s.events ++ [.readTooLarge] ∧ Answered s t (.readInto false []))

/-- RX_READ_SIZE completes for every receiver: it returns `SIZE` and touches nothing (R213). -/
def Obligations.RxReadSizeReturnsSize : Prop :=
  ∀ (s : State) (k : Nat) (c : RxConfig) (r : Rx), s.unit k = some (.rx c r) →
    ∃ t, exec (.rxReadSize k) s = .next t ∧ NothingTouched s t ∧ Answered s t (.size r.size) ∧
      t.events = s.events

/-- The three commands that run a step fault by name where a bit would go to an index that `RXBUF` does
not have (R80, R87; log 12); no sound state is one of these (SoundMachineNeverFaults). -/
def Obligations.BitBeyondTheBufferFaults : Prop :=
  ∀ (s : State) (k : Nat) (c : RxConfig) (r : Rx), s.unit k = some (.rx c r) → r.state = .framing →
    c.cap ≤ r.byteCnt.toNat → s.ports.sampleLevel s.clockWidth ≠ r.prev →
    elapsed s.clockWidth (s.ports.nextClock s.clockWidth) r.ref ≤ startUs c.bitRate →
    inWin (elapsed s.clockWidth (s.ports.nextClock s.clockWidth) r.ref) (frameUs c.bitRate) = true →
      ∀ i ∈ [Instr.rxPoll k, .rxPollBlocking k, .rxHasData k],
        exec i s = .fault (.bufferIndexOutOfRange k r.byteCnt.toNat)

/-- RX_POLL_BLOCKING answers within a bounded number of steps when host time goes on (R343): in a sound
machine whose only pending action it is, with gaps of at least 1 µs that cannot be mistaken across a
wrap, it has ended after `8 * RX_CAP * (START_US + 1) + START_US + 2` machine steps, whatever the levels. That
each machine step takes one sample until the command ends is log 10, and that the steps after its end
change nothing is log 19. -/
def Obligations.PollBlockingEndsWhenTimeGoesOn : Prop :=
  ∀ (s : State) (k n : Nat) (c : RxConfig) (r : Rx) (data : List Byte), s.Sound →
    s.unit k = some (.rx c r) → k < 256 →
    s.host = [.command (encode (.rxPollBlocking k)) data] →
    8 * c.cap * (startUs c.bitRate + 1) + startUs c.bitRate + 2 ≤ n → n ≤ s.ports.gaps.length →
    (∀ g ∈ s.ports.gaps, 1 ≤ g ∧ g < 2 ^ s.clockWidth - startUs c.bitRate) →
      ∃ t size, Host.Core.run Sys2Proof.core n s = .next t ∧ t.host = [] ∧
        t.responses = s.responses ++ [.size size]

/-- With a clock that stops while the receiver is FRAMING and the line is still, RX_POLL_BLOCKING never
ends: it stays pending, and no register changes (R343, I14). -/
def Obligations.StoppedClockLeavesPollBlockingPending : Prop :=
  ∀ (s : State) (k n : Nat) (c : RxConfig) (r : Rx) (data : List Byte) (rest : List HostAction),
    s.unit k = some (.rx c r) → k < 256 → r.slotFree c → r.state = .framing →
    s.host = .command (encode (.rxPollBlocking k)) data :: rest →
    elapsed s.clockWidth (clockValue s.clockWidth s.ports.time) r.ref ≤ startUs c.bitRate →
    s.ports.gaps = List.replicate n 0 → s.ports.levels = List.replicate n r.prev →
      ∃ t, Host.Core.run Sys2Proof.core n s = .next t ∧ t.host = s.host ∧
        t.responses = s.responses ∧ t.unit k = some (.rx c r)

/-! ### The whole machine -/

/-- The machine is sound after reset. -/
def Obligations.ResetIsSound : Prop := State.reset.Sound

/-- Every step keeps the invariant (R63 with R44, R49, R50, R52, R54, R193, R214): from any sound state,
also one no run reaches. -/
def Obligations.EveryStepKeepsSoundness : Prop :=
  ∀ s t : State, s.Sound → step s = .next t → t.Sound

/-- No receiver step of a sound machine touches `RXBUF` outside its capacity: a machine step raises no
fault, and the one fault there is guards those accesses (R63 (3), R87; the fault is log 12). -/
def Obligations.SoundMachineNeverFaults : Prop :=
  ∀ s : State, s.Sound → ¬ Faults (step s)

/-- No command changes any unit's configuration, constructs a unit or removes one, or changes the clock's
width (R8, R57). -/
def Obligations.CommandsKeepEveryConfiguration : Prop :=
  ∀ (i : Instr) (s t : State), exec i s = .next t →
    t.clockWidth = s.clockWidth ∧
    ∀ k, (t.unit k).map CodecUnit.config = (s.unit k).map CodecUnit.config

/-- A command acts on the one unit it names: every other unit keeps every register and every byte of its
buffer; a checksum command changes none (R95, R89). -/
def Obligations.CommandActsOnItsUnitOnly : Prop :=
  ∀ (i : Instr) (s t : State), exec i s = .next t →
    ∀ k, txOperand i ≠ some k → rxOperand i ≠ some k → t.unit k = s.unit k

/-- What a command does to its unit, the ports, the host and the outputs does not depend on any other
unit: two machines that agree on everything else answer alike (R92, R95). -/
def Obligations.OtherUnitsHaveNoInfluence : Prop :=
  ∀ (i : Instr) (s₁ s₂ t₁ : State),
    s₁.clockWidth = s₂.clockWidth → s₁.ports = s₂.ports → s₁.host = s₂.host →
    s₁.responses = s₂.responses → s₁.events = s₂.events →
    (∀ k, txOperand i = some k ∨ rxOperand i = some k → s₁.unit k = s₂.unit k) →
    exec i s₁ = .next t₁ →
      ∃ t₂, exec i s₂ = .next t₂ ∧ t₂.ports = t₁.ports ∧ t₂.host = t₁.host ∧
        t₂.responses = t₁.responses ∧ t₂.events = t₁.events ∧
        ∀ k, txOperand i = some k ∨ rxOperand i = some k → t₂.unit k = t₁.unit k

/-- Exactly three things write `READY` (R51): a command that turns a receiver's flag on is one whose step
accepted a frame; one that turns it off is one whose step accepted a start, or RX_HAS_DATA answering 1. -/
def Obligations.ReadyHasThreeWriters : Prop :=
  ∀ (i : Instr) (s t : State) (k : Nat) (c : RxConfig) (r q : Rx), exec i s = .next t →
    s.unit k = some (.rx c r) → t.unit k = some (.rx c q) →
    (r.ready = false → q.ready = true →
      rxOperand i = some k ∧ Accepts s.clockWidth c (s.ports.nextClock s.clockWidth) r) ∧
    (r.ready = true → q.ready = false →
      rxOperand i = some k ∧
        ((r.state = .edgeCandidate ∧ q.state = .framing) ∨
          (i = .rxHasData k ∧ t.responses = s.responses ++ [.hasData true])))

/-- Only an accepting close writes `SIZE` (R52). -/
def Obligations.OnlyAcceptanceWritesSize : Prop :=
  ∀ (i : Instr) (s t : State) (k : Nat) (c : RxConfig) (r q : Rx), exec i s = .next t →
    s.unit k = some (.rx c r) → t.unit k = some (.rx c q) → q.size ≠ r.size →
      Accepts s.clockWidth c (s.ports.nextClock s.clockWidth) r ∧
        q.size.toNat + checksumSize c.chkMode = r.byteCnt.toNat

/-- Only TX_SEND_DATA writes `TXBUF` (R43). -/
def Obligations.OnlySendDataWritesTxBuf : Prop :=
  ∀ (i : Instr) (s t : State) (k : Nat) (c : TxConfig) (x y : Tx), exec i s = .next t →
    s.unit k = some (.tx c x) → t.unit k = some (.tx c y) →
    (∀ n, i ≠ .txSendData k n) → y.txBuf = x.txBuf

/-- RX_READ_INTO, RX_READ_SIZE, CHK_CRC8 and CHK_XOR are idempotent: issued twice in a row with the same
data, each gives the same response twice (R90). -/
def Obligations.ReadingCommandsAreIdempotent : Prop :=
  ∀ (i : Instr) (s t u : State) (w : CommandWord) (data : List Byte) (rest : List HostAction),
    (∃ k n, i = .rxReadInto k n) ∨ (∃ k, i = .rxReadSize k) ∨
      (i = .chkCrc8 data.length) ∨ (i = .chkXor data.length) →
    s.host = .command w data :: .command w data :: rest →
    exec i s = .next t → exec i t = .next u →
      ∃ answer, t.responses = s.responses ++ [answer] ∧ u.responses = t.responses ++ [answer] ∧
        u.units = s.units ∧ u.ports = s.ports

/-- Host time never goes back in a step (R334). -/
def Obligations.HostTimeNeverGoesBack : Prop :=
  ∀ s t : State, step s = .next t → s.ports.time ≤ t.ports.time

/-- A buffer reads back what was last written at each index, and a write keeps the canonical form
(R80, R84). -/
def Obligations.BufferReadsWhatWasWritten : Prop :=
  ∀ (m : Memory) (i j : Nat) (v : Byte), Memory.wf m →
    Memory.wf (Memory.write m i v) ∧
    Memory.read (Memory.write m i v) j = if j = i then v else Memory.read m j

/-- Two canonical buffers that read alike everywhere are the same data. -/
def Obligations.EqualReadsAreEqualBuffers : Prop :=
  ∀ m n : Memory, Memory.wf m → Memory.wf n → (∀ i, Memory.read m i = Memory.read n i) → m = n

/-- Round trip (R346), for a receiver that samples the line at the start of each segment and once in the
silence after the frame: at every legal bit rate, in every checksum mode, for every payload within R346's
bound and every clock width, the receiver accepts the frame the transmitter's segments carry, returns
its size and holds the payload. -/
def Obligations.ReceiverDecodesTransmittedFrame : Prop :=
  ∀ (W start pulses g : Nat) (ct : TxConfig) (cr : RxConfig) (payload : List Byte) (r : Rx),
    ct.legal W = true → cr.legal W = true → ct.bitRate = cr.bitRate → ct.chkMode = cr.chkMode →
    2 ≤ payload.length + checksumSize cr.chkMode →
    payload.length + checksumSize cr.chkMode ≤ cr.cap - 1 →
    r.Sound W cr → r.state = .idle → r.prev = false → 1 ≤ g → g ≤ startUs cr.bitRate →
      let frame := payload ++ (checksum ct.chkMode payload).toList
      let segs := txSegments ct.bitRate pulses frame
      let silence := start + nominalUs segs - halfUs cr.bitRate + startUs cr.bitRate + g
      let last := rxStep W cr (clockValue W silence) false (feed W cr r (lineSamples start segs))
      last.ret.toNat = payload.length ∧ last.rx.state = .idle ∧ last.rx.ready = true ∧
        last.rx.size.toNat = payload.length ∧
        Memory.readBytes last.rx.rxBuf 0 payload.length = payload
end

