-- ==== Sys2Proof/Laws/Checksum.lean ====
section
/-! SUPPORT. The laws of the checksum generator (spec/42_checksum.md). -/

namespace Sys2Proof.Machine

@[simp] theorem crc8_nil : crc8 [] = 0 := rfl
@[simp] theorem xor8_nil : xor8 [] = 0 := rfl

theorem crc8_append (s u : List Byte) : crc8 (s ++ u) = u.foldl crcByte (crc8 s) := by
  simp [crc8]

theorem xor8_append (s u : List Byte) : xor8 (s ++ u) = u.foldl (· ^^^ ·) (xor8 s) := by
  simp [xor8]

/-- One more byte (R260). -/
theorem crc8_snoc (s : List Byte) (b : Byte) : crc8 (s ++ [b]) = crcByte (crc8 s) b := by
  simp [crc8_append]

/-- One more byte (R261). -/
theorem xor8_snoc (s : List Byte) (b : Byte) : xor8 (s ++ [b]) = xor8 s ^^^ b := by
  simp [xor8_append]

/-- The shifts of 0 give 0. -/
@[simp] theorem crcShifts_zero (n : Nat) : crcShifts n 0#8 = 0#8 := by
  induction n with
  | zero => rfl
  | succ n ih => exact ih

/-- One shift is linear over XOR: it sends a difference to the difference of the results. -/
theorem crcShift_xor (a b : Byte) : crcShift (a ^^^ b) = crcShift a ^^^ crcShift b := by
  unfold crcShift
  rw [BitVec.getLsbD_xor, BitVec.ushiftRight_xor_distrib]
  cases a.getLsbD 0 <;> cases b.getLsbD 0 <;> simp
  · rw [BitVec.xor_assoc]
  · rw [BitVec.xor_assoc, BitVec.xor_assoc, BitVec.xor_comm (140#8)]
  · rw [BitVec.xor_assoc, ← BitVec.xor_assoc (140#8), BitVec.xor_comm (140#8), BitVec.xor_assoc]
    simp

theorem crcShifts_xor (n : Nat) (a b : Byte) :
    crcShifts n (a ^^^ b) = crcShifts n a ^^^ crcShifts n b := by
  induction n generalizing a b with
  | zero => rfl
  | succ n ih => simp only [crcShifts, crcShift_xor, ih]

@[simp] theorem checksum_noCheck (s : List Byte) : checksum .noCheck s = none := rfl
@[simp] theorem checksum_crc8 (s : List Byte) : checksum .crc8 s = some (crc8 s) := rfl
@[simp] theorem checksum_xor (s : List Byte) : checksum .xor s = some (xor8 s) := rfl
@[simp] theorem chkOk_noCheck (s : List Byte) : chkOk .noCheck s = true := rfl
@[simp] theorem chkOk_crc8 (s : List Byte) : chkOk .crc8 s = true ↔ crc8 s = 0 := by simp [chkOk]
@[simp] theorem chkOk_xor (s : List Byte) : chkOk .xor s = true ↔ xor8 s = 0 := by simp [chkOk]

theorem checksumSize_le_one (m : ChkMode) : checksumSize m ≤ 1 := by cases m <;> decide

end Sys2Proof.Machine
end

