-- ==== Sys2Proof/Laws/Encoding.lean ====
section
/-! SUPPORT. The fields of an assembled word are what was put in (spec/30_encoding.md R120, R121). -/

namespace Sys2Proof

@[simp] theorem opcField_assemble (opc : BitVec 8) (inst n : Nat) :
    opcField (assemble opc inst n) = opc.toNat := by
  have h : (assemble opc inst n).extractLsb' 24 8 = opc := by
    apply BitVec.eq_of_getLsbD_eq
    intro i hi
    simp only [assemble, BitVec.getLsbD_extractLsb', BitVec.getLsbD_append]
    simp [hi, show ¬ 24 + i < 16 by omega, show ¬ 24 + i - 16 < 8 by omega,
      show 24 + i - 16 - 8 = i by omega]
  rw [opcField, h]

theorem instField_assemble (opc : BitVec 8) {inst : Nat} (n : Nat) (h : inst < 256) :
    instField (assemble opc inst n) = inst := by
  have hf : (assemble opc inst n).extractLsb' 16 8 = BitVec.ofNat 8 inst := by
    apply BitVec.eq_of_getLsbD_eq
    intro i hi
    simp only [assemble, BitVec.getLsbD_extractLsb', BitVec.getLsbD_append]
    simp [hi]
  rw [instField, hf, BitVec.toNat_ofNat]
  omega

theorem countField_assemble (opc : BitVec 8) (inst : Nat) {n : Nat} (h : n < 65536) :
    countField (assemble opc inst n) = n := by
  have hf : (assemble opc inst n).extractLsb' 0 16 = BitVec.ofNat 16 n := by
    apply BitVec.eq_of_getLsbD_eq
    intro i hi
    simp only [assemble, BitVec.getLsbD_extractLsb', BitVec.getLsbD_append]
    simp [hi]
  rw [countField, hf, BitVec.toNat_ofNat]
  omega

@[simp] theorem instInRange_iff (inst : Nat) : instInRange inst = true ↔ inst < 256 := by
  simp [instInRange]

@[simp] theorem countInRange_iff (n : Nat) : countInRange n = true ↔ n < 65536 := by
  simp [countInRange]

end Sys2Proof
end

