-- ==== Sys2Proof/Laws/PerInstr.lean ====
section
/-! SUPPORT. The facts of every command as syntax, one lemma per constructor. -/

namespace Sys2Proof.Laws.EncodingFields

/-- The word of a well-formed command carries its operands in their fields, and 0 in a field the command
does not have (spec/30_encoding.md R120, R121, R123). -/
def Statement (i : Instr) : Prop :=
  i.wellFormed = true →
    match i with
    | .txSendData inst n => instField (encode i) = inst ∧ countField (encode i) = n
    | .txWrite inst n => instField (encode i) = inst ∧ countField (encode i) = n
    | .rxPoll inst => instField (encode i) = inst ∧ countField (encode i) = 0
    | .rxPollBlocking inst => instField (encode i) = inst ∧ countField (encode i) = 0
    | .rxHasData inst => instField (encode i) = inst ∧ countField (encode i) = 0
    | .rxReadInto inst n => instField (encode i) = inst ∧ countField (encode i) = n
    | .rxReadSize inst => instField (encode i) = inst ∧ countField (encode i) = 0
    | .chkCrc8 n => instField (encode i) = 0 ∧ countField (encode i) = n
    | .chkXor n => instField (encode i) = 0 ∧ countField (encode i) = n

theorem txSendData (inst n : Nat) : Statement (.txSendData inst n) := by
  intro h
  simp only [Instr.wellFormed, Bool.and_eq_true, instInRange_iff, countInRange_iff] at h
  exact ⟨instField_assemble _ _ h.1, countField_assemble _ _ h.2⟩

theorem txWrite (inst n : Nat) : Statement (.txWrite inst n) := by
  intro h
  simp only [Instr.wellFormed, Bool.and_eq_true, instInRange_iff, countInRange_iff] at h
  exact ⟨instField_assemble _ _ h.1, countField_assemble _ _ h.2⟩

theorem rxPoll (inst : Nat) : Statement (.rxPoll inst) := by
  intro h
  simp only [Instr.wellFormed, instInRange_iff] at h
  exact ⟨instField_assemble _ _ h, countField_assemble _ _ (by decide)⟩

theorem rxPollBlocking (inst : Nat) : Statement (.rxPollBlocking inst) := by
  intro h
  simp only [Instr.wellFormed, instInRange_iff] at h
  exact ⟨instField_assemble _ _ h, countField_assemble _ _ (by decide)⟩

theorem rxHasData (inst : Nat) : Statement (.rxHasData inst) := by
  intro h
  simp only [Instr.wellFormed, instInRange_iff] at h
  exact ⟨instField_assemble _ _ h, countField_assemble _ _ (by decide)⟩

theorem rxReadInto (inst n : Nat) : Statement (.rxReadInto inst n) := by
  intro h
  simp only [Instr.wellFormed, Bool.and_eq_true, instInRange_iff, countInRange_iff] at h
  exact ⟨instField_assemble _ _ h.1, countField_assemble _ _ h.2⟩

theorem rxReadSize (inst : Nat) : Statement (.rxReadSize inst) := by
  intro h
  simp only [Instr.wellFormed, instInRange_iff] at h
  exact ⟨instField_assemble _ _ h, countField_assemble _ _ (by decide)⟩

theorem chkCrc8 (n : Nat) : Statement (.chkCrc8 n) := by
  intro h
  simp only [Instr.wellFormed, countInRange_iff] at h
  exact ⟨instField_assemble _ _ (by decide), countField_assemble _ _ h⟩

theorem chkXor (n : Nat) : Statement (.chkXor n) := by
  intro h
  simp only [Instr.wellFormed, countInRange_iff] at h
  exact ⟨instField_assemble _ _ (by decide), countField_assemble _ _ h⟩

end Sys2Proof.Laws.EncodingFields
end

