-- ==== Sys2Proof/Laws/Table.lean ====
section
/-! SUPPORT. The laws of sparse maps and buffers: read after write, the canonical form is kept, equal
reads mean equal buffers. -/

namespace Sys2Proof.Machine

variable {α : Type}

/-! ### Sparse maps -/

@[simp] theorem Table.find_nil (k : Nat) : Table.find k ([] : Table α) = none := rfl

@[simp] theorem Table.find_insert_self (k : Nat) (v : α) (m : Table α) :
    Table.find k (Table.insert k v m) = some v := by
  induction m with
  | nil => simp [Table.insert, Table.find]
  | cons entry rest ih =>
    obtain ⟨j, a⟩ := entry
    simp only [Table.insert]
    split
    · simp [Table.find]
    · split
      · simp [Table.find]
      · have hne : j ≠ k := fun h => by simp_all
        simp [Table.find, hne, ih]

theorem Table.find_insert_ne {k j : Nat} (h : j ≠ k) (v : α) (m : Table α) :
    Table.find j (Table.insert k v m) = Table.find j m := by
  induction m with
  | nil => simp [Table.insert, Table.find, Ne.symm h]
  | cons entry rest ih =>
    obtain ⟨i, a⟩ := entry
    simp only [Table.insert]
    split
    · simp [Table.find, Ne.symm h]
    · split
      · subst_vars; simp [Table.find, Ne.symm h]
      · simp only [Table.find]; split
        · rfl
        · exact ih

theorem Table.mem_insert {k : Nat} {v : α} {m : Table α} {x : Nat × α}
    (h : x ∈ Table.insert k v m) : x = (k, v) ∨ x ∈ m := by
  induction m with
  | nil => simpa [Table.insert] using h
  | cons entry rest ih =>
    obtain ⟨j, a⟩ := entry
    simp only [Table.insert] at h
    split at h
    · simpa using h
    · split at h
      · simp only [List.mem_cons] at h ⊢; tauto
      · simp only [List.mem_cons] at h ⊢
        rcases h with h | h
        · exact .inr (.inl h)
        · rcases ih h with h | h <;> tauto

/-- In a sorted map, an entry of the map after an insertion is the new one or one with another key. -/
theorem Table.mem_insert_ne {k : Nat} {v : α} {m : Table α} (hs : Table.sorted m) {x : Nat × α}
    (h : x ∈ Table.insert k v m) : x = (k, v) ∨ (x ∈ m ∧ x.1 ≠ k) := by
  induction m with
  | nil => exact .inl (by simpa [Table.insert] using h)
  | cons entry rest ih =>
    obtain ⟨j, a⟩ := entry
    have hrest : ∀ y ∈ rest, j < y.1 := (List.pairwise_cons.mp hs).1
    simp only [Table.insert] at h
    split at h
    · rename_i hkj
      rcases List.mem_cons.mp h with h | h
      · exact .inl h
      · refine .inr ⟨h, ?_⟩
        rcases List.mem_cons.mp h with h | h
        · subst h; simp; omega
        · have := hrest x h; omega
    · split at h
      · rename_i hkj
        rcases List.mem_cons.mp h with h | h
        · exact .inl h
        · have := hrest x h
          exact .inr ⟨List.mem_cons_of_mem _ h, by omega⟩
      · rename_i h1 h2
        rcases List.mem_cons.mp h with h | h
        · subst h; exact .inr ⟨by simp, fun h => h2 h.symm⟩
        · rcases ih (List.pairwise_cons.mp hs).2 h with h | h
          · exact .inl h
          · exact .inr ⟨List.mem_cons_of_mem _ h.1, h.2⟩

theorem Table.mem_insert_self (k : Nat) (v : α) (m : Table α) : (k, v) ∈ Table.insert k v m := by
  induction m with
  | nil => simp [Table.insert]
  | cons entry rest ih =>
    obtain ⟨j, a⟩ := entry
    simp only [Table.insert]
    split
    · simp
    · split
      · simp
      · exact List.mem_cons_of_mem _ ih

theorem Table.insert_sorted (k : Nat) (v : α) {m : Table α} (h : Table.sorted m) :
    Table.sorted (Table.insert k v m) := by
  induction m with
  | nil => simp [Table.insert, Table.sorted]
  | cons entry rest ih =>
    obtain ⟨j, a⟩ := entry
    obtain ⟨hlt, hrest⟩ := List.pairwise_cons.mp h
    simp only [Table.insert]
    split
    · rename_i hkj
      refine List.pairwise_cons.mpr ⟨fun y hy => ?_, h⟩
      rcases List.mem_cons.mp hy with rfl | hy
      · exact hkj
      · exact Nat.lt_trans hkj (hlt y hy)
    · split
      · rename_i _ hkj
        exact List.pairwise_cons.mpr ⟨fun y hy => hkj ▸ hlt y hy, hrest⟩
      · rename_i h1 h2
        refine List.pairwise_cons.mpr ⟨fun y hy => ?_, ih hrest⟩
        rcases Table.mem_insert hy with rfl | hy
        · show j < k; omega
        · exact hlt y hy

theorem Table.mem_erase {k : Nat} {m : Table α} {x : Nat × α} (h : x ∈ Table.erase k m) :
    x ∈ m := by
  induction m with
  | nil => simp [Table.erase] at h
  | cons entry rest ih =>
    obtain ⟨j, a⟩ := entry
    simp only [Table.erase] at h
    split at h
    · exact List.mem_cons_of_mem _ h
    · rcases List.mem_cons.mp h with h | h
      · simp [h]
      · exact List.mem_cons_of_mem _ (ih h)

theorem Table.erase_sorted (k : Nat) {m : Table α} (h : Table.sorted m) :
    Table.sorted (Table.erase k m) := by
  induction m with
  | nil => simp [Table.erase, Table.sorted]
  | cons entry rest ih =>
    obtain ⟨j, a⟩ := entry
    obtain ⟨hlt, hrest⟩ := List.pairwise_cons.mp h
    simp only [Table.erase]
    split
    · exact hrest
    · exact List.pairwise_cons.mpr ⟨fun y hy => hlt y (Table.mem_erase hy), ih hrest⟩

/-- A key below every key of a map is not found. -/
theorem Table.find_below {k : Nat} {m : Table α} (h : ∀ x ∈ m, k < x.1) : Table.find k m = none := by
  induction m with
  | nil => rfl
  | cons entry rest ih =>
    obtain ⟨j, a⟩ := entry
    have hj : k < j := h (j, a) (by simp)
    have hne : j ≠ k := by omega
    simp only [Table.find, hne, if_false]
    exact ih fun x hx => h x (List.mem_cons_of_mem _ hx)

theorem Table.find_erase_self (k : Nat) {m : Table α} (h : Table.sorted m) :
    Table.find k (Table.erase k m) = none := by
  induction m with
  | nil => rfl
  | cons entry rest ih =>
    obtain ⟨j, a⟩ := entry
    obtain ⟨hlt, hrest⟩ := List.pairwise_cons.mp h
    simp only [Table.erase]
    split
    · rename_i hjk; exact Table.find_below fun x hx => hjk ▸ hlt x hx
    · rename_i hjk; simp only [Table.find, hjk, if_false]; exact ih hrest

theorem Table.find_erase_ne {k j : Nat} (h : j ≠ k) (m : Table α) :
    Table.find j (Table.erase k m) = Table.find j m := by
  induction m with
  | nil => rfl
  | cons entry rest ih =>
    obtain ⟨i, a⟩ := entry
    simp only [Table.erase]
    split
    · rename_i hik
      have : i ≠ j := by omega
      simp [Table.find, this]
    · simp only [Table.find]; split
      · rfl
      · exact ih

theorem Table.mem_of_find {k : Nat} {v : α} {m : Table α} (h : Table.find k m = some v) :
    (k, v) ∈ m := by
  induction m with
  | nil => simp at h
  | cons entry rest ih =>
    obtain ⟨j, a⟩ := entry
    simp only [Table.find] at h
    split at h
    · rename_i hjk; simp_all
    · exact List.mem_cons_of_mem _ (ih h)

theorem Table.find_of_mem {m : Table α} (hs : Table.sorted m) {x : Nat × α} (h : x ∈ m) :
    Table.find x.1 m = some x.2 := by
  induction m with
  | nil => simp at h
  | cons entry rest ih =>
    obtain ⟨j, a⟩ := entry
    obtain ⟨hlt, hrest⟩ := List.pairwise_cons.mp hs
    rcases List.mem_cons.mp h with rfl | h
    · simp [Table.find]
    · have := hlt x h
      have hne : j ≠ x.1 := by show j ≠ x.1; simp at this; omega
      simp only [Table.find, hne, if_false]
      exact ih hrest h

/-! ### Buffers -/

@[simp] theorem Memory.read_nil (i : Nat) : Memory.read [] i = 0 := rfl

theorem Memory.read_write_self (m : Memory) (h : Memory.wf m) (i : Nat) (v : Byte) :
    Memory.read (Memory.write m i v) i = v := by
  unfold Memory.read Memory.write
  split
  · rename_i hv; rw [Table.find_erase_self i h.1]; simp [hv]
  · simp

theorem Memory.read_write_ne (m : Memory) {i j : Nat} (h : j ≠ i) (v : Byte) :
    Memory.read (Memory.write m i v) j = Memory.read m j := by
  unfold Memory.read Memory.write
  split
  · rw [Table.find_erase_ne h]
  · rw [Table.find_insert_ne h]

theorem Memory.write_wf {m : Memory} (h : Memory.wf m) (i : Nat) (v : Byte) :
    Memory.wf (Memory.write m i v) := by
  unfold Memory.write
  split
  · exact ⟨Table.erase_sorted i h.1, fun x hx => h.2 x (Table.mem_erase hx)⟩
  · rename_i hv
    refine ⟨Table.insert_sorted i v h.1, fun x hx => ?_⟩
    rcases Table.mem_insert hx with rfl | hx
    · exact hv
    · exact h.2 x hx

theorem Memory.write_within {cap : Nat} {m : Memory} (h : Memory.within cap m) {i : Nat}
    (hi : i < cap) (v : Byte) : Memory.within cap (Memory.write m i v) := by
  unfold Memory.write
  split
  · exact fun x hx => h x (Table.mem_erase hx)
  · intro x hx
    rcases Table.mem_insert hx with rfl | hx
    · exact hi
    · exact h x hx

theorem Memory.wf_nil : Memory.wf [] := by decide

theorem Memory.within_nil (cap : Nat) : Memory.within cap [] := by simp [Memory.within]

theorem Memory.writeBytes_wf {m : Memory} (h : Memory.wf m) (i : Nat) (s : List Byte) :
    Memory.wf (Memory.writeBytes m i s) := by
  induction s generalizing m i with
  | nil => exact h
  | cons b rest ih => exact ih (Memory.write_wf h i b) (i + 1)

theorem Memory.writeBytes_within {cap : Nat} {m : Memory} (h : Memory.within cap m) (i : Nat)
    (s : List Byte) (hs : i + s.length ≤ cap) : Memory.within cap (Memory.writeBytes m i s) := by
  induction s generalizing m i with
  | nil => exact h
  | cons b rest ih =>
    simp only [List.length_cons] at hs
    exact ih (Memory.write_within h (by omega) b) (i + 1) (by omega)

/-- A buffer reads back what was written into it, and as before outside. -/
theorem Memory.read_writeBytes {m : Memory} (h : Memory.wf m) (i : Nat) (s : List Byte) (j : Nat) :
    Memory.read (Memory.writeBytes m i s) j =
      if i ≤ j ∧ j < i + s.length then s.getD (j - i) 0 else Memory.read m j := by
  induction s generalizing m i with
  | nil => simp [Memory.writeBytes]
  | cons b rest ih =>
    simp only [Memory.writeBytes, ih (Memory.write_wf h i b) (i + 1), List.length_cons]
    by_cases hji : j = i
    · subst hji
      rw [if_neg (by omega), if_pos (by omega), Memory.read_write_self m h]; simp
    · rw [Memory.read_write_ne m hji]
      by_cases hin : i + 1 ≤ j ∧ j < i + 1 + rest.length
      · rw [if_pos hin, if_pos (by omega)]
        obtain ⟨k, rfl⟩ : ∃ k, j = i + 1 + k := ⟨j - (i + 1), by omega⟩
        rw [show i + 1 + k - (i + 1) = k by omega, show i + 1 + k - i = k + 1 by omega]
        simp
      · rw [if_neg hin, if_neg (by omega)]

@[simp] theorem Memory.readBytes_length (m : Memory) (i n : Nat) :
    (Memory.readBytes m i n).length = n := by simp [Memory.readBytes]

theorem Memory.readBytes_getD (m : Memory) (i n k : Nat) (h : k < n) (d : Byte) :
    (Memory.readBytes m i n).getD k d = Memory.read m (i + k) := by
  simp [Memory.readBytes, List.getD, h]

theorem Memory.readBytes_congr {m m' : Memory} {i n : Nat}
    (h : ∀ j, i ≤ j → j < i + n → Memory.read m j = Memory.read m' j) :
    Memory.readBytes m i n = Memory.readBytes m' i n := by
  unfold Memory.readBytes
  exact List.map_congr_left fun k hk => h _ (by omega) (by have := List.mem_range.mp hk; omega)

/-- Reading back all the bytes just written gives them. -/
theorem Memory.readBytes_writeBytes {m : Memory} (h : Memory.wf m) (i : Nat) (s : List Byte) :
    Memory.readBytes (Memory.writeBytes m i s) i s.length = s := by
  apply List.ext_getElem (by simp)
  intro k h1 h2
  simp only [Memory.readBytes, List.getElem_map, List.getElem_range,
    Memory.read_writeBytes h i s (i + k)]
  rw [if_pos (by omega)]
  simp [List.getD, h2]

theorem Memory.readBytes_succ (m : Memory) (i n : Nat) :
    Memory.readBytes m i (n + 1) = Memory.readBytes m i n ++ [Memory.read m (i + n)] := by
  simp [Memory.readBytes, List.range_succ]

theorem Memory.clear_wf {cap : Nat} {m : Memory} (h : Memory.wf m) :
    Memory.wf (Memory.clear cap m) :=
  ⟨h.1.filter _, fun x hx => h.2 x (List.mem_filter.mp hx).1⟩

/-- A buffer within its capacity is empty of nonzero bytes after the clear. -/
theorem Memory.clear_eq_nil {cap : Nat} {m : Memory} (h : Memory.within cap m) :
    Memory.clear cap m = [] := by
  unfold Memory.clear
  refine List.filter_eq_nil_iff.mpr fun x hx => ?_
  have := h x hx
  simp; omega

theorem Memory.read_clear {cap : Nat} {m : Memory} (i : Nat) (hi : i < cap) :
    Memory.read (Memory.clear cap m) i = 0 := by
  have hnone : Table.find i (Memory.clear cap m) = none := by
    by_contra hne
    obtain ⟨v, hv⟩ := Option.ne_none_iff_exists'.mp hne
    have := (List.mem_filter.mp (Table.mem_of_find hv)).2
    simp at this; omega
  simp [Memory.read, hnone, Memory.unlisted]

theorem Memory.drawn_wf (cap : Nat) (s : List Byte) : Memory.wf (Memory.drawn cap s) :=
  Memory.writeBytes_wf Memory.wf_nil 0 _

theorem Memory.drawn_within (cap : Nat) (s : List Byte) :
    Memory.within cap (Memory.drawn cap s) :=
  Memory.writeBytes_within (Memory.within_nil cap) 0 _ (by simp)

end Sys2Proof.Machine
end

