-- ==== Sys2Proof/Laws/State.lean ====
section
/-! SUPPORT. One lemma per field per update of State, Ports and the registers, so that no proof unfolds
a record update. -/

namespace Sys2Proof.Machine

/-! ### State -/

@[simp] theorem State.setUnit_clockWidth (s : State) (k u) : (s.setUnit k u).clockWidth = s.clockWidth := rfl
@[simp] theorem State.setUnit_units (s : State) (k u) :
    (s.setUnit k u).units = Table.insert k u s.units := rfl
@[simp] theorem State.setUnit_host (s : State) (k u) : (s.setUnit k u).host = s.host := rfl
@[simp] theorem State.setUnit_responses (s : State) (k u) : (s.setUnit k u).responses = s.responses := rfl
@[simp] theorem State.setUnit_events (s : State) (k u) : (s.setUnit k u).events = s.events := rfl
@[simp] theorem State.setUnit_ports (s : State) (k u) : (s.setUnit k u).ports = s.ports := rfl
@[simp] theorem State.setUnit_unit_self (s : State) (k u) : (s.setUnit k u).unit k = some u := by
  simp [State.unit]
theorem State.setUnit_unit_ne (s : State) {k j : Nat} (h : j ≠ k) (u) :
    (s.setUnit k u).unit j = s.unit j := by
  simp [State.unit, Table.find_insert_ne h]

@[simp] theorem State.setPorts_clockWidth (s : State) (p) : (s.setPorts p).clockWidth = s.clockWidth := rfl
@[simp] theorem State.setPorts_units (s : State) (p) : (s.setPorts p).units = s.units := rfl
@[simp] theorem State.setPorts_host (s : State) (p) : (s.setPorts p).host = s.host := rfl
@[simp] theorem State.setPorts_responses (s : State) (p) : (s.setPorts p).responses = s.responses := rfl
@[simp] theorem State.setPorts_events (s : State) (p) : (s.setPorts p).events = s.events := rfl
@[simp] theorem State.setPorts_ports (s : State) (p) : (s.setPorts p).ports = p := rfl
@[simp] theorem State.setPorts_unit (s : State) (p k) : (s.setPorts p).unit k = s.unit k := rfl

@[simp] theorem State.logEvent_clockWidth (s : State) (e) : (s.logEvent e).clockWidth = s.clockWidth := rfl
@[simp] theorem State.logEvent_units (s : State) (e) : (s.logEvent e).units = s.units := rfl
@[simp] theorem State.logEvent_host (s : State) (e) : (s.logEvent e).host = s.host := rfl
@[simp] theorem State.logEvent_responses (s : State) (e) : (s.logEvent e).responses = s.responses := rfl
@[simp] theorem State.logEvent_events (s : State) (e) :
    (s.logEvent e).events = s.events ++ e.toList := rfl
@[simp] theorem State.logEvent_ports (s : State) (e) : (s.logEvent e).ports = s.ports := rfl
@[simp] theorem State.logEvent_unit (s : State) (e k) : (s.logEvent e).unit k = s.unit k := rfl

@[simp] theorem State.retire_clockWidth (s : State) (r) : (s.retire r).clockWidth = s.clockWidth := rfl
@[simp] theorem State.retire_units (s : State) (r) : (s.retire r).units = s.units := rfl
@[simp] theorem State.retire_host (s : State) (r) : (s.retire r).host = s.host.tail := rfl
@[simp] theorem State.retire_responses (s : State) (r) :
    (s.retire r).responses = s.responses ++ [r] := rfl
@[simp] theorem State.retire_events (s : State) (r) : (s.retire r).events = s.events := rfl
@[simp] theorem State.retire_ports (s : State) (r) : (s.retire r).ports = s.ports := rfl
@[simp] theorem State.retire_unit (s : State) (r k) : (s.retire r).unit k = s.unit k := rfl

@[simp] theorem State.dropAction_clockWidth (s : State) : s.dropAction.clockWidth = s.clockWidth := rfl
@[simp] theorem State.dropAction_units (s : State) : s.dropAction.units = s.units := rfl
@[simp] theorem State.dropAction_host (s : State) : s.dropAction.host = s.host.tail := rfl
@[simp] theorem State.dropAction_responses (s : State) : s.dropAction.responses = s.responses := rfl
@[simp] theorem State.dropAction_events (s : State) : s.dropAction.events = s.events := rfl
@[simp] theorem State.dropAction_ports (s : State) : s.dropAction.ports = s.ports := rfl
@[simp] theorem State.dropAction_unit (s : State) (k) : s.dropAction.unit k = s.unit k := rfl

@[simp] theorem State.refuseCommand_clockWidth (s : State) (w) :
    (s.refuseCommand w).clockWidth = s.clockWidth := rfl
@[simp] theorem State.refuseCommand_units (s : State) (w) : (s.refuseCommand w).units = s.units := rfl
@[simp] theorem State.refuseCommand_host (s : State) (w) : (s.refuseCommand w).host = s.host.tail := rfl
@[simp] theorem State.refuseCommand_responses (s : State) (w) :
    (s.refuseCommand w).responses = s.responses ++ [.illegalCommand w] := rfl
@[simp] theorem State.refuseCommand_events (s : State) (w) :
    (s.refuseCommand w).events = s.events ++ [.illegalCommand] := rfl
@[simp] theorem State.refuseCommand_ports (s : State) (w) : (s.refuseCommand w).ports = s.ports := rfl
@[simp] theorem State.refuseCommand_unit (s : State) (w k) :
    (s.refuseCommand w).unit k = s.unit k := rfl

/-! ### Ports -/

@[simp] theorem Ports.call_time (p : Ports) (c) : (p.call c).time = p.time := rfl
@[simp] theorem Ports.call_gaps (p : Ports) (c) : (p.call c).gaps = p.gaps := rfl
@[simp] theorem Ports.call_levels (p : Ports) (c) : (p.call c).levels = p.levels := rfl
@[simp] theorem Ports.call_delays (p : Ports) (c) : (p.call c).delays = p.delays := rfl
@[simp] theorem Ports.call_drawn (p : Ports) (c) : (p.call c).drawn = p.drawn := rfl
@[simp] theorem Ports.call_trace (p : Ports) (c) : (p.call c).trace = p.trace ++ [c] := rfl

@[simp] theorem Ports.now_time (W) (p : Ports) : (p.now W).time = p.time + p.nextGap := rfl
@[simp] theorem Ports.now_gaps (W) (p : Ports) : (p.now W).gaps = p.gaps.tail := rfl
@[simp] theorem Ports.now_levels (W) (p : Ports) : (p.now W).levels = p.levels := rfl
@[simp] theorem Ports.now_delays (W) (p : Ports) : (p.now W).delays = p.delays := rfl
@[simp] theorem Ports.now_drawn (W) (p : Ports) : (p.now W).drawn = p.drawn + 1 := rfl
@[simp] theorem Ports.now_trace (W) (p : Ports) :
    (p.now W).trace = p.trace ++ [.now (p.nextClock W)] := rfl

@[simp] theorem Ports.readPin_time (pin) (p : Ports) : (p.readPin pin).time = p.time := rfl
@[simp] theorem Ports.readPin_gaps (pin) (p : Ports) : (p.readPin pin).gaps = p.gaps := rfl
@[simp] theorem Ports.readPin_levels (pin) (p : Ports) : (p.readPin pin).levels = p.levels.tail := rfl
@[simp] theorem Ports.readPin_delays (pin) (p : Ports) : (p.readPin pin).delays = p.delays := rfl
@[simp] theorem Ports.readPin_drawn (pin) (p : Ports) : (p.readPin pin).drawn = p.drawn + 1 := rfl
@[simp] theorem Ports.readPin_trace (pin) (p : Ports) :
    (p.readPin pin).trace = p.trace ++ [.readPin pin p.nextLevel] := rfl

@[simp] theorem Ports.sample_time (W pin) (p : Ports) : (p.sample W pin).time = p.time + p.nextGap := rfl
@[simp] theorem Ports.sample_gaps (W pin) (p : Ports) : (p.sample W pin).gaps = p.gaps.tail := rfl
@[simp] theorem Ports.sample_levels (W pin) (p : Ports) : (p.sample W pin).levels = p.levels.tail := rfl
@[simp] theorem Ports.sample_delays (W pin) (p : Ports) : (p.sample W pin).delays = p.delays := rfl
@[simp] theorem Ports.sample_drawn (W pin) (p : Ports) : (p.sample W pin).drawn = p.drawn + 2 := rfl
@[simp] theorem Ports.sample_trace (W pin) (p : Ports) :
    (p.sample W pin).trace =
      p.trace ++ [.now (p.nextClock W), .readPin pin (p.sampleLevel W)] := by
  simp [Ports.sample, Ports.sampleLevel]

@[simp] theorem Ports.writePin_time (pin l) (p : Ports) : (p.writePin pin l).time = p.time := rfl
@[simp] theorem Ports.writePin_gaps (pin l) (p : Ports) : (p.writePin pin l).gaps = p.gaps := rfl
@[simp] theorem Ports.writePin_levels (pin l) (p : Ports) : (p.writePin pin l).levels = p.levels := rfl
@[simp] theorem Ports.writePin_delays (pin l) (p : Ports) : (p.writePin pin l).delays = p.delays := rfl
@[simp] theorem Ports.writePin_drawn (pin l) (p : Ports) : (p.writePin pin l).drawn = p.drawn := rfl
@[simp] theorem Ports.writePin_trace (pin l) (p : Ports) :
    (p.writePin pin l).trace = p.trace ++ [.writePin pin l] := rfl

@[simp] theorem Ports.busyWait_time (d) (p : Ports) : (p.busyWait d).time = p.time + p.nextDelay d := rfl
@[simp] theorem Ports.busyWait_gaps (d) (p : Ports) : (p.busyWait d).gaps = p.gaps := rfl
@[simp] theorem Ports.busyWait_levels (d) (p : Ports) : (p.busyWait d).levels = p.levels := rfl
@[simp] theorem Ports.busyWait_delays (d) (p : Ports) : (p.busyWait d).delays = p.delays.tail := rfl
@[simp] theorem Ports.busyWait_drawn (d) (p : Ports) : (p.busyWait d).drawn = p.drawn + 1 := rfl
@[simp] theorem Ports.busyWait_trace (d) (p : Ports) :
    (p.busyWait d).trace = p.trace ++ [.busyWait d (p.nextDelay d)] := rfl

/-- Host time never goes back at a clock sample (R334). -/
theorem Ports.now_monotone (W) (p : Ports) : p.time ≤ (p.now W).time := by simp

theorem clockValue_lt (W time : Nat) : clockValue W time < 2 ^ W :=
  Nat.mod_lt _ (Nat.two_pow_pos W)

theorem Ports.nextClock_lt (W) (p : Ports) : p.nextClock W < 2 ^ W := clockValue_lt W _

theorem elapsed_lt (W t r : Nat) : elapsed W t r < 2 ^ W := Nat.mod_lt _ (Nat.two_pow_pos W)

/-! ### Operands -/

@[simp] theorem State.dataPhase_length (s : State) (n : Nat) : (s.dataPhase n).length = n := by
  simp [State.dataPhase]

theorem State.findTx_eq {s : State} {k : Nat} {c : TxConfig} {x : Tx} :
    s.findTx k = some (c, x) ↔ s.unit k = some (.tx c x) := by
  unfold State.findTx
  rcases s.unit k with _ | (_ | _) <;> simp

theorem State.findRx_eq {s : State} {k : Nat} {c : RxConfig} {r : Rx} :
    s.findRx k = some (c, r) ↔ s.unit k = some (.rx c r) := by
  unfold State.findRx
  rcases s.unit k with _ | (_ | _) <;> simp

/-! ### Registers -/

@[simp] theorem Rx.clearReady_state (r : Rx) : r.clearReady.state = r.state := rfl
@[simp] theorem Rx.clearReady_prev (r : Rx) : r.clearReady.prev = r.prev := rfl
@[simp] theorem Rx.clearReady_ref (r : Rx) : r.clearReady.ref = r.ref := rfl
@[simp] theorem Rx.clearReady_bitCnt (r : Rx) : r.clearReady.bitCnt = r.bitCnt := rfl
@[simp] theorem Rx.clearReady_byteCnt (r : Rx) : r.clearReady.byteCnt = r.byteCnt := rfl
@[simp] theorem Rx.clearReady_rxBuf (r : Rx) : r.clearReady.rxBuf = r.rxBuf := rfl
@[simp] theorem Rx.clearReady_ready (r : Rx) : r.clearReady.ready = false := rfl
@[simp] theorem Rx.clearReady_size (r : Rx) : r.clearReady.size = r.size := rfl

theorem Rx.clearReady_of_not_ready {r : Rx} (h : r.ready = false) : r.clearReady = r := by
  obtain ⟨⟩ := r; simp_all [Rx.clearReady]

end Sys2Proof.Machine
end

