-- ==== Sys2Proof/Laws/Receiver.lean ====
section
/-! SUPPORT. What one receiver step can do (spec/41_receive.md R216): one equation per row, and what a
command that runs a step leaves. -/

namespace Sys2Proof.Machine

variable {W : Nat} {c : RxConfig} {t : Nat} {level : Level} {r : Rx}

/-- FRAMING, silence: the close. -/
theorem rxStep_close (hf : r.state = .framing) (hs : isSilence (elapsed W t r.ref) c.bitRate = true) :
    rxStep W c t level r = closeFrame c r := by simp [rxStep, hf, hs]

/-- No edge and no close: nothing changes (R208). -/
theorem rxStep_noEdge
    (hs : ¬ (r.state = .framing ∧ isSilence (elapsed W t r.ref) c.bitRate = true))
    (he : level = r.prev) : rxStep W c t level r = ⟨r, 0, none⟩ := by simp [rxStep, hs, he]

/-- An edge, no close: the edge is processed (R197). -/
theorem rxStep_edge
    (hs : ¬ (r.state = .framing ∧ isSilence (elapsed W t r.ref) c.bitRate = true))
    (he : level ≠ r.prev) :
    rxStep W c t level r = processEdge c t level (elapsed W t r.ref) r := by
  simp [rxStep, hs, he]

/-- The three things a step can be. -/
theorem rxStep_cases :
    (r.state = .framing ∧ isSilence (elapsed W t r.ref) c.bitRate = true ∧
        rxStep W c t level r = closeFrame c r) ∨
    (level = r.prev ∧ rxStep W c t level r = ⟨r, 0, none⟩) ∨
    (level ≠ r.prev ∧ ¬ (r.state = .framing ∧ isSilence (elapsed W t r.ref) c.bitRate = true) ∧
        rxStep W c t level r = processEdge c t level (elapsed W t r.ref) r) := by
  by_cases hs : r.state = .framing ∧ isSilence (elapsed W t r.ref) c.bitRate = true
  · exact .inl ⟨hs.1, hs.2, rxStep_close hs.1 hs.2⟩
  · by_cases he : level = r.prev
    · exact .inr (.inl ⟨he, rxStep_noEdge hs he⟩)
    · exact .inr (.inr ⟨he, hs, rxStep_edge hs he⟩)

/-- The edge rows of R216 that are not a bit. -/
theorem processEdge_idle (e : Nat) (h : r.state = .idle) :
    processEdge c t level e r =
      ⟨{ r with state := if level then .edgeCandidate else .idle, ref := t, prev := level }, 0,
        none⟩ := by
  cases level <;> simp [processEdge, classifyEdge, edgeCatch, h]

theorem processEdge_start (e : Nat) (h : r.state = .edgeCandidate)
    (hw : inWin e (startUs c.bitRate) = true) :
    processEdge c t level e r = ⟨{ acceptStart c t r with prev := level }, 0, none⟩ := by
  simp [processEdge, classifyEdge, edgeCatch, h, hw, acceptStart, Rx.clearReady]

theorem processEdge_noise (e : Nat) (h : r.state = .edgeCandidate)
    (hw : inWin e (startUs c.bitRate) = false) (hl : level = false) :
    processEdge c t level e r =
      ⟨{ r with state := .idle, ref := t, prev := level }, 0, some .timingNoiseStart⟩ := by
  simp [processEdge, classifyEdge, edgeCatch, h, hw, hl]

theorem processEdge_ignored (e : Nat) (h : r.state = .framing)
    (hw : inWin e (frameUs c.bitRate) = false) :
    processEdge c t level e r = ⟨{ r with prev := level }, 0, some .timingNoiseBit⟩ := by
  simp [processEdge, classifyEdge, edgeCatch, h, hw]

theorem processEdge_bit (e : Nat) (h : r.state = .framing)
    (hw : inWin e (frameUs c.bitRate) = true) :
    processEdge c t level e r =
      ⟨{ edgeCatch t level (acceptBit c t level r).1 with prev := level }, 0,
        (acceptBit c t level r).2⟩ := by
  simp [processEdge, classifyEdge, h, hw]

/-- A bit that does not complete a byte (R201). -/
theorem acceptBit_inner (h : r.bitCnt.toNat + 1 ≠ 8) :
    acceptBit c t level r =
      ({ r with
          ref := t, bitCnt := r.bitCnt + 1,
          rxBuf := Memory.write r.rxBuf r.byteCnt.toNat
            (shiftIn (Memory.read r.rxBuf r.byteCnt.toNat) level) }, none) := by
  simp [acceptBit, h]

/-- A bit that completes a byte (R203). -/
theorem acceptBit_byte (h : r.bitCnt.toNat + 1 = 8) :
    acceptBit c t level r =
      ({ r with
          state := if r.byteCnt.toNat + 1 = c.cap then .idle else r.state,
          ref := t, bitCnt := 0, byteCnt := r.byteCnt + 1,
          rxBuf := Memory.write r.rxBuf r.byteCnt.toNat
            (shiftIn (Memory.read r.rxBuf r.byteCnt.toNat) level) },
        if r.byteCnt.toNat + 1 = c.cap then some .rxOverflow else none) := by
  by_cases hc : r.byteCnt.toNat + 1 = c.cap <;> simp [acceptBit, closeByte, h, hc]

/-- A sound receiver never leaves its buffer (R63, R87). -/
theorem rxInRange_of_slot (hslot : r.state = .framing → r.byteCnt.toNat < c.cap) :
    rxInRange W c t level r = true := by
  cases hr : r.state
  · simp [rxInRange, hr]
  · simp [rxInRange, hr]
  · have := hslot hr
    simp only [rxInRange, hr]
    split
    · simp; omega
    · split
      · simpa using this
      · rfl

theorem Rx.Sound.inRange (h : r.Sound W c) : rxInRange W c t level r = true :=
  rxInRange_of_slot h.slotExists

/-! ### The commands that run a step -/

/-- The state when the step is done, before the command's own end. -/
def afterStep (k : Nat) (c : RxConfig) (r : Rx) (s : State) : StepResult × State :=
  let res := rxStep s.clockWidth c (s.ports.nextClock s.clockWidth)
    (s.ports.sampleLevel s.clockWidth) r
  (res, ((s.setPorts (s.ports.sample s.clockWidth c.pin)).setUnit k (.rx c res.rx)).logEvent res.event)

/-- A command that runs a step answers the next state its end makes, when the step stays in the
buffer. -/
theorem stepUnit_next {k : Nat} {s : State} {finish : StepResult → State → State}
    (h : rxInRange s.clockWidth c (s.ports.nextClock s.clockWidth)
      (s.ports.sampleLevel s.clockWidth) r = true) :
    stepUnit k c r s finish = .next (finish (afterStep k c r s).1 (afterStep k c r s).2) := by
  simp [stepUnit, h, afterStep]

/-- All a command that runs a step can answer. -/
theorem stepUnit_cases (k : Nat) (s : State) (finish : StepResult → State → State) :
    (stepUnit k c r s finish = .next (finish (afterStep k c r s).1 (afterStep k c r s).2)) ∨
    (rxInRange s.clockWidth c (s.ports.nextClock s.clockWidth) (s.ports.sampleLevel s.clockWidth) r
        = false ∧
      stepUnit k c r s finish = .fault (.bufferIndexOutOfRange k r.byteCnt.toNat)) := by
  cases h : rxInRange s.clockWidth c (s.ports.nextClock s.clockWidth)
      (s.ports.sampleLevel s.clockWidth) r
  · exact .inr ⟨rfl, by simp [stepUnit, h]⟩
  · exact .inl (stepUnit_next h)

end Sys2Proof.Machine
end

