-- ==== Sys2Proof/Laws/Transmit.lean ====
section
/-! SUPPORT. What a transmission does to the transmitter and the ports (spec/40_transmit.md R150). -/

namespace Sys2Proof.Machine

/-- The actual durations the ports give to successive busy-waits. -/
def waits (p : Ports) : List Segment → List Nat
  | [] => []
  | seg :: rest => p.nextDelay seg.us :: waits (p.busyWait seg.us) rest

theorem waits_length (p : Ports) (segs : List Segment) : (waits p segs).length = segs.length := by
  induction segs generalizing p with
  | nil => rfl
  | cons seg rest ih => simp [waits, ih]

/-- `waits` looks only at the draws. -/
theorem waits_congr {p q : Ports} (hd : p.delays = q.delays) (hn : p.drawn = q.drawn)
    (segs : List Segment) : waits p segs = waits q segs := by
  induction segs generalizing p q with
  | nil => rfl
  | cons seg rest ih =>
    simp only [waits, Ports.nextDelay, hd, hn]
    rw [ih (p := p.busyWait seg.us) (q := q.busyWait seg.us) (by simp [hd]) (by simp [hn])]

/-- A run of segments leaves every register but `TXPIN`. -/
theorem emits_tx (pin : Nat) (segs : List Segment) (run : Tx × Ports) :
    (segs.foldl (emit pin) run).1 = { run.1 with txPin := (segs.getLast?.map Segment.level).getD run.1.txPin } := by
  induction segs generalizing run with
  | nil => rfl
  | cons seg rest ih =>
    simp only [List.foldl_cons, ih, emit, drivePin]
    cases hr : rest.getLast? with
    | none => simp [List.getLast?_eq_none_iff.mp hr]
    | some last => simp [List.getLast?_cons, hr]

theorem emits_trace (pin : Nat) (segs : List Segment) (run : Tx × Ports) :
    (segs.foldl (emit pin) run).2.trace =
      run.2.trace ++ segmentTrace pin segs (waits run.2 segs) := by
  induction segs generalizing run with
  | nil => simp [segmentTrace]
  | cons seg rest ih =>
    simp only [List.foldl_cons, ih, emit, drivePin, waits, segmentTrace]
    rw [waits_congr (q := run.2.busyWait seg.us) (by simp) (by simp)]
    simp [Ports.nextDelay]

theorem emits_gaps (pin : Nat) (segs : List Segment) (run : Tx × Ports) :
    (segs.foldl (emit pin) run).2.gaps = run.2.gaps := by
  induction segs generalizing run with
  | nil => rfl
  | cons seg rest ih => simp [List.foldl_cons, ih, emit, drivePin]

theorem emits_levels (pin : Nat) (segs : List Segment) (run : Tx × Ports) :
    (segs.foldl (emit pin) run).2.levels = run.2.levels := by
  induction segs generalizing run with
  | nil => rfl
  | cons seg rest ih => simp [List.foldl_cons, ih, emit, drivePin]

theorem emits_time (pin : Nat) (segs : List Segment) (run : Tx × Ports) :
    (segs.foldl (emit pin) run).2.time = run.2.time + (waits run.2 segs).sum := by
  induction segs generalizing run with
  | nil => rfl
  | cons seg rest ih =>
    simp only [List.foldl_cons, ih, emit, drivePin, waits]
    rw [waits_congr (q := run.2.busyWait seg.us) (by simp) (by simp)]
    simp [Ports.nextDelay]; omega

/-- A transmission writes `TLAST` with its one clock sample, leaves `TXPIN` 0, and touches no other
register (R150, R152, R154). -/
theorem transmit_tx (W : Nat) (c : TxConfig) (x : Tx) (frame : List Byte) (p : Ports) :
    (transmit W c x frame p).1 = { x with tLast := p.nextClock W, txPin := false } := by
  simp [transmit, drivePin, emits_tx]

/-- The port calls of a transmission (R150, R153). -/
theorem transmit_trace (W : Nat) (c : TxConfig) (x : Tx) (frame : List Byte) (p : Ports) :
    (transmit W c x frame p).2.trace =
      p.trace ++ [.now (p.nextClock W)]
        ++ segmentTrace c.pin
            (txSegments c.bitRate (preambleCount W c x.tLast (p.nextClock W)) frame)
            (waits (p.now W)
              (txSegments c.bitRate (preambleCount W c x.tLast (p.nextClock W)) frame))
        ++ [.writePin c.pin false] := by
  simp [transmit, drivePin, emits_trace]

theorem transmit_gaps (W : Nat) (c : TxConfig) (x : Tx) (frame : List Byte) (p : Ports) :
    (transmit W c x frame p).2.gaps = p.gaps.tail := by
  simp [transmit, drivePin, emits_gaps]

theorem transmit_levels (W : Nat) (c : TxConfig) (x : Tx) (frame : List Byte) (p : Ports) :
    (transmit W c x frame p).2.levels = p.levels := by
  simp [transmit, drivePin, emits_levels]

theorem frameBits_length (frame : List Byte) : (frameBits frame).length = 8 * frame.length := by
  induction frame with
  | nil => rfl
  | cons b rest ih =>
    simp only [frameBits, List.flatMap_cons, List.length_append, List.length_cons] at ih ⊢
    rw [ih]; simp [byteBits]; omega

theorem checksum_isSome (m : ChkMode) (s : List Byte) :
    (checksum m s).isSome = decide (checksumSize m = 1) := by cases m <;> rfl

end Sys2Proof.Machine
end

