-- ==== Sys2Proof/Tests/Slice0.lean ====
section
/-! SUPPORT. The model's own tests. Expected results are those of spec/95_test_vectors.md (named at each
test) or are read off a rule; `test_witness_<statement>` shows a state and operands that meet the hypotheses
of the statement of that name. -/

namespace Sys2Proof.Tests

open Sys2Proof.Machine

/-! ### The bench: transmitter 0 and receiver 1 of 95_test_vectors.md -/

/-- The next state, if the outcome is one. -/
def nextState? (o : Host.Outcome State Fault Refusal) : Option State :=
  match o with
  | .next t => some t
  | .fault _ => none
  | .refused _ => none

/-- The state after a command. -/
def after (i : Instr) (s : State) : State := (nextState? (exec i s)).getD s

theorem exec_after {i : Instr} {s : State} (h : (nextState? (exec i s)).isSome = true) :
    exec i s = .next (after i s) := by
  unfold after
  cases hx : exec i s <;> simp_all [nextState?]

/-- The state after a machine step. -/
def afterStep (s : State) : State := (nextState? (step s)).getD s

theorem step_afterStep {s : State} (h : (nextState? (step s)).isSome = true) :
    step s = .next (afterStep s) := by
  unfold afterStep
  cases hx : step s <;> simp_all [nextState?]

def t0 : TxConfig :=
  { bitRate := 3000, link := .normal, chkMode := .crc8, cap := 8, longCount := 20, pin := 0 }

def r1 : RxConfig := { bitRate := 3000, chkMode := .crc8, cap := 8, pin := 1 }

/-- A transmitter whose buffer holds FF in every byte. -/
def quietTx : Tx :=
  { txBuf := [(0, 0xFF), (1, 0xFF), (2, 0xFF), (3, 0xFF), (4, 0xFF), (5, 0xFF), (6, 0xFF), (7, 0xFF)],
    tLast := 7, txPin := false }

def idleRx : Rx :=
  { state := .idle, prev := false, ref := 0, bitCnt := 0, byteCnt := 0, rxBuf := [], ready := false,
    size := 0 }

/-- EDGE_CANDIDATE, PREV 1, REF 1000: the start state of V-RX4 to V-RX7. -/
def candidateRx : Rx := { idleRx with state := .edgeCandidate, prev := true, ref := 1000 }

/-- FRAMING, PREV 0, REF 1000: the start state of V-RX10 and V-RX11. -/
def framingRx : Rx := { idleRx with state := .framing, ref := 1000 }

/-- The start state of V-RX18: the frame 04 03 02 01 25 received. -/
def fullRx : Rx :=
  { framingRx with byteCnt := 5, rxBuf := [(0, 0x04), (1, 0x03), (2, 0x02), (3, 0x01), (4, 0x25)] }

/-- The start state of V-RX22: the same with a wrong first byte. -/
def badRx : Rx :=
  { framingRx with byteCnt := 5, rxBuf := [(0, 0x05), (1, 0x03), (2, 0x02), (3, 0x01), (4, 0x25)] }

/-- The start state of V-RX15: the buffer's last byte, one bit missing. -/
def lastBitRx : Rx :=
  { framingRx with prev := true, bitCnt := 7, byteCnt := 7, rxBuf := [(7, 0x80)] }

/-- The end state of V-RX18. -/
def acceptedRx : Rx := { fullRx with state := .idle, ready := true, size := 4 }

/-- Both units, the next samples `(time, level)` of the ports, and the host's actions. -/
def bench (x : Tx) (r : Rx) (time : Nat) (level : Level) (host : List HostAction) : State :=
  { clockWidth := 32, units := [(0, .tx t0 x), (1, .rx r1 r)], host := host, responses := [],
    events := [],
    ports := { time := 0, gaps := [time], levels := [level], delays := [], drawn := 0, trace := [] } }

/-- The receiver after an action, and the responses. -/
def seen (s : State) : Option CodecUnit × List Response := (s.unit 1, s.responses)

/-! ### Well-formedness: every check refuses an ill-formed command -/

theorem test_wellFormed_instance :
    ¬ (Instr.txSendData 256 0).wellFormed ∧ ¬ (Instr.txWrite 256 0).wellFormed ∧
    ¬ (Instr.rxPoll 256).wellFormed ∧ ¬ (Instr.rxPollBlocking 256).wellFormed ∧
    ¬ (Instr.rxHasData 256).wellFormed ∧ ¬ (Instr.rxReadInto 256 0).wellFormed ∧
    ¬ (Instr.rxReadSize 256).wellFormed := by decide

theorem test_wellFormed_count :
    ¬ (Instr.txSendData 0 65536).wellFormed ∧ ¬ (Instr.txWrite 0 65536).wellFormed ∧
    ¬ (Instr.rxReadInto 1 65536).wellFormed ∧ ¬ (Instr.chkCrc8 65536).wellFormed ∧
    ¬ (Instr.chkXor 65536).wellFormed := by decide

/-! ### Decoding: words written out bit by bit from R120 and R122 -/

theorem test_decode_tx_words :
    decode 0b00000001_00000000_0000000000000100 = .command (.txSendData 0 4) ∧
    decode 0b00000010_00000000_0000000000000001 = .command (.txWrite 0 1) ∧
    decode 0b00000001_00000000_1111111111111111 = .command (.txSendData 0 65535) := by decide

theorem test_decode_rx_words :
    decode 0b00010000_00000001_0000000000000000 = .command (.rxPoll 1) ∧
    decode 0b00010001_00000001_0000000000000000 = .command (.rxPollBlocking 1) ∧
    decode 0b00010010_00000001_0000000000000000 = .command (.rxHasData 1) ∧
    decode 0b00010011_00000001_0000000000000100 = .command (.rxReadInto 1 4) ∧
    decode 0b00010100_11111111_0000000000000000 = .command (.rxReadSize 255) := by decide

theorem test_decode_chk_words :
    decode 0b00100000_00000000_0000000000001001 = .command (.chkCrc8 9) ∧
    decode 0b00100001_00000000_0000000000000010 = .command (.chkXor 2) := by decide

/-- 95_test_vectors.md section 2.6: RX_HAS_DATA and RX_POLL_BLOCKING with `N != 0` by R123. -/
theorem test_decode_refuses :
    decode 0x00000000 = .rejected .unknownOpcode ∧ decode 0x10010001 = .rejected .nonzeroCount ∧
    decode 0x11010001 = .rejected .nonzeroCount ∧ decode 0x12018000 = .rejected .nonzeroCount ∧
    decode 0x20010000 = .rejected .nonzeroInstance ∧ decode 0x21050003 = .rejected .nonzeroInstance := by
  decide

/-- R127's examples, encoded. -/
theorem test_encode_words :
    encode (.txSendData 0 4) = 0x01000004 ∧ encode (.txWrite 0 1) = 0x02000001 ∧
    encode (.rxPoll 1) = 0x10010000 ∧ encode (.rxPollBlocking 1) = 0x11010000 ∧
    encode (.rxHasData 1) = 0x12010000 ∧ encode (.rxReadInto 1 4) = 0x13010004 ∧
    encode (.rxReadSize 1) = 0x14010000 ∧ encode (.chkCrc8 9) = 0x20000009 ∧
    encode (.chkXor 2) = 0x21000002 := by decide

/-! ### Timing: 95_test_vectors.md section 2.1 -/

theorem test_derived_constants :
    (frameUs 1, halfUs 1, startUs 1) = (1000000, 500000, 2000000) ∧
    (frameUs 2400, halfUs 2400, startUs 2400) = (417, 208, 833) ∧
    (frameUs 3000, halfUs 3000, startUs 3000) = (333, 167, 667) ∧
    (frameUs 6000, halfUs 6000, startUs 6000) = (167, 83, 333) := by decide

theorem test_window_bounds :
    inWin 249 333 = false ∧ inWin 250 333 = true ∧ inWin 416 333 = true ∧ inWin 417 333 = false ∧
    inWin 500 667 = false ∧ inWin 501 667 = true ∧ inWin 833 667 = true ∧ inWin 834 667 = false := by
  decide

/-- V-TX3. -/
theorem test_preamble_selection :
    let poor := { t0 with link := .poor }
    preambleCount 32 poor 0 400000 = 10 ∧ preambleCount 32 poor 0 400001 = 20 ∧
    preambleCount 32 poor 4294967000 399704 = 10 ∧ preambleCount 32 poor 4294967000 399705 = 20 ∧
    preambleCount 32 poor 1000 1005 = 10 ∧ preambleCount 32 t0 0 400001 = 10 := by decide +kernel

/-! ### Transmitter -/

/-- V-TX1's bit cells of A5. -/
theorem test_wire_of_a5 :
    ((txSegments 3000 0 [0xA5]).map fun seg => (seg.level, seg.us)) =
      [(true, 667), (false, 167),
       (false, 167), (true, 167), (true, 167), (false, 167), (false, 167), (true, 167),
       (true, 167), (false, 167), (true, 167), (false, 167), (false, 167), (true, 167),
       (true, 167), (false, 167), (false, 167), (true, 167)] := by decide +kernel

/-- V-TX1: 38 busy-waits, 10166 µs nominal, `TLAST` 0, `TXBUF` untouched. -/
theorem test_txWrite_one_byte :
    let t := after (.txWrite 0 1) (bench quietTx idleRx 0 false [.command 0x02000001 [0xA5]])
    let waits := t.ports.trace.filterMap fun p => match p with | .busyWait us _ => some us | _ => none
    waits.length = 38 ∧ waits.sum = 10166 ∧ t.unit 0 = some (.tx t0 { quietTx with tLast := 0 }) ∧
      t.responses = [.write] := by decide +kernel

/-- V-TX4: the checksum byte behind the payload, bytes 5 to 7 unchanged. -/
theorem test_txSendData_crc8 :
    let t := after (.txSendData 0 4)
      (bench quietTx idleRx 1000 false [.command 0x01000004 [0x04, 0x03, 0x02, 0x01]])
    t.unit 0 = some (.tx t0
      { txBuf := [(0, 0x04), (1, 0x03), (2, 0x02), (3, 0x01), (4, 0x25), (5, 0xFF), (6, 0xFF), (7, 0xFF)],
        tLast := 1000, txPin := false }) ∧ t.responses = [.sendData true] := by decide +kernel

/-- V-TX8 at this capacity: 8 payload bytes and a checksum byte do not fit 8. -/
theorem test_txSendData_too_large :
    let t := after (.txSendData 0 8) (bench quietTx idleRx 0 false [.command 0x01000008 []])
    t.unit 0 = some (.tx t0 quietTx) ∧ t.ports.trace = [] ∧ t.responses = [.sendData false] ∧
      t.events = [.sendTooLarge] := by decide +kernel

/-! ### Receiver step: the vectors of section 2.3 -/

/-- V-RX10, V-RX11, V-RX12, V-RX13. -/
theorem test_bit_window :
    rxStep 32 r1 1249 true framingRx = ⟨{ framingRx with prev := true }, 0, some .timingNoiseBit⟩ ∧
    rxStep 32 r1 1250 true framingRx =
      ⟨{ framingRx with ref := 1250, prev := true, rxBuf := [(0, 0x80)], bitCnt := 1 }, 0, none⟩ ∧
    rxStep 32 r1 1416 false { framingRx with prev := true } =
      ⟨{ framingRx with ref := 1416, bitCnt := 1 }, 0, none⟩ ∧
    rxStep 32 r1 1417 false { framingRx with prev := true } =
      ⟨framingRx, 0, some .timingNoiseBit⟩ := by decide +kernel

/-- V-RX4 to V-RX8. -/
theorem test_start_window :
    rxStep 32 r1 1500 false candidateRx = ⟨{ idleRx with ref := 1500 }, 0, some .timingNoiseStart⟩ ∧
    rxStep 32 r1 1501 false candidateRx = ⟨{ framingRx with ref := 1501 }, 0, none⟩ ∧
    rxStep 32 r1 1833 false candidateRx = ⟨{ framingRx with ref := 1833 }, 0, none⟩ ∧
    rxStep 32 r1 1834 false candidateRx = ⟨{ idleRx with ref := 1834 }, 0, some .timingNoiseStart⟩ ∧
    rxStep 32 r1 1667 false { acceptedRx with state := .edgeCandidate, prev := true } =
      ⟨{ framingRx with ref := 1667, size := 4 }, 0, none⟩ := by decide +kernel

/-- V-RX14, V-RX15, V-RX16. -/
theorem test_byte_close :
    rxStep 32 r1 1333 true { framingRx with bitCnt := 7, byteCnt := 2, rxBuf := [(2, 0x4A)] } =
      ⟨{ framingRx with ref := 1333, prev := true, byteCnt := 3, rxBuf := [(2, 0xA5)] }, 0, none⟩ ∧
    rxStep 32 r1 1333 false lastBitRx =
      ⟨{ idleRx with ref := 1333, byteCnt := 8, rxBuf := [(7, 0x40)] }, 0, some .rxOverflow⟩ ∧
    rxStep 32 r1 1333 true { lastBitRx with prev := false } =
      ⟨{ candidateRx with ref := 1333, byteCnt := 8, rxBuf := [(7, 0xC0)] }, 0, some .rxOverflow⟩ := by
  decide +kernel

/-- V-RX17, V-RX19, V-RX22. -/
theorem test_silence_close :
    rxStep 32 r1 1667 false fullRx = ⟨fullRx, 0, none⟩ ∧
    rxStep 32 r1 1668 true fullRx = ⟨acceptedRx, 4, none⟩ ∧
    rxStep 32 r1 1668 false badRx = ⟨{ badRx with state := .idle }, 0, some .checksumMismatch⟩ := by
  decide +kernel

/-- V-RX27 and V-RX28: across the clock's wrap. -/
theorem test_wrap :
    rxStep 32 r1 233 true { framingRx with ref := 4294967196 } =
      ⟨{ framingRx with ref := 233, prev := true, rxBuf := [(0, 0x80)], bitCnt := 1 }, 0, none⟩ ∧
    rxStep 32 r1 371 false { candidateRx with ref := 4294967000 } =
      ⟨{ framingRx with ref := 371 }, 0, none⟩ := by decide +kernel

/-! ### Receiver commands: the vectors of section 2.4 -/

/-- V-RX18 by RX_POLL (V-RC1). -/
theorem test_rxPoll_accepts :
    seen (after (.rxPoll 1) (bench quietTx fullRx 1668 false [.command 0x10010000 []])) =
      (some (.rx r1 acceptedRx), [.size 4]) := by decide +kernel

/-- V-RC2. -/
theorem test_rxPollBlocking_idle :
    seen (after (.rxPollBlocking 1) (bench quietTx idleRx 100 false [.command 0x11010000 []])) =
      (some (.rx r1 idleRx), [.size 0]) := by decide +kernel

/-- V-RX17's sample under RX_POLL_BLOCKING: still FRAMING, so no response (R210). -/
theorem test_rxPollBlocking_pending :
    let t := after (.rxPollBlocking 1) (bench quietTx fullRx 1667 false [.command 0x11010000 []])
    seen t = (some (.rx r1 fullRx), []) ∧ t.host = [.command 0x11010000 []] := by decide +kernel

/-- V-RC5. -/
theorem test_rxHasData_clears :
    seen (after (.rxHasData 1) (bench quietTx acceptedRx 1700 false [.command 0x12010000 []])) =
      (some (.rx r1 { acceptedRx with ready := false }), [.hasData true]) := by decide +kernel

/-- V-RC6. -/
theorem test_rxHasData_accepts :
    seen (after (.rxHasData 1) (bench quietTx fullRx 1668 false [.command 0x12010000 []])) =
      (some (.rx r1 { acceptedRx with ready := false }), [.hasData true]) := by decide +kernel

/-- V-RC8. -/
theorem test_rxReadInto_whole_buffer :
    seen (after (.rxReadInto 1 8) (bench quietTx acceptedRx 0 false [.command 0x13010008 []])) =
      (some (.rx r1 acceptedRx), [.readInto true [0x04, 0x03, 0x02, 0x01, 0x25, 0, 0, 0]]) := by
  decide +kernel

/-- V-RC8. -/
theorem test_rxReadInto_too_large :
    let t := after (.rxReadInto 1 9) (bench quietTx acceptedRx 0 false [.command 0x13010009 []])
    seen t = (some (.rx r1 acceptedRx), [.readInto false []]) ∧ t.events = [.readTooLarge] := by
  decide +kernel

/-- V-RC10. -/
theorem test_rxReadSize :
    seen (after (.rxReadSize 1) (bench quietTx acceptedRx 0 false [.command 0x14010000 []])) =
      (some (.rx r1 acceptedRx), [.size 4]) := by decide +kernel

/-! ### Checksum commands: section 2.5 -/

/-- R270's reference values. -/
theorem test_checksum_reference_values :
    (crc8 [] = 0x00 ∧ crc8 [0x01] = 0x5E ∧ crc8 [0x80] = 0x8C ∧ crc8 [0xFF] = 0x35 ∧
      crc8 [0xA5] = 0x90 ∧ crc8 [0x25] = 0x1C ∧ crc8 [0x5A] = 0xA5 ∧ crc8 [0x12, 0x34] = 0xA2 ∧
      crc8 [0x5A, 0x3C] = 0x8D ∧ crc8 [0x04, 0x03, 0x02, 0x01] = 0x25 ∧
      crc8 [0xDE, 0xAD, 0xBE, 0xEF] = 0x84 ∧ crc8 [0x05, 0x03, 0x02, 0x01, 0x25] = 0xCD) ∧
    (xor8 [] = 0x00 ∧ xor8 [0xA5] = 0xA5 ∧ xor8 [0x12, 0x34] = 0x26 ∧ xor8 [0x5A, 0x5A] = 0x00 ∧
      xor8 [0x04, 0x03, 0x02, 0x01] = 0x04 ∧ xor8 [0xDE, 0xAD, 0xBE, 0xEF] = 0x22) := by
  decide +kernel

theorem test_chkCrc8 :
    (after (.chkCrc8 9) (bench quietTx idleRx 0 false
      [.command 0x20000009 [0x31, 0x32, 0x33, 0x34, 0x35, 0x36, 0x37, 0x38, 0x39]])).responses =
        [.checksum 0xA1] := by decide +kernel

theorem test_chkXor :
    (after (.chkXor 3) (bench quietTx idleRx 0 false
      [.command 0x21000003 [0x12, 0x34, 0x26]])).responses = [.checksum 0x00] := by decide +kernel

/-! ### Refusals: section 2.6 -/

/-- TX_SEND_DATA on a receiver, RX_POLL on a transmitter, RX_POLL on instance 7, an unknown `OPC`. -/
theorem test_refused_words :
    [0x01010004, 0x10000000, 0x10070000, 0x03000001].all (fun w =>
      let s := bench quietTx idleRx 0 false [.command w [0xAA]]
      let t := afterStep s
      decide (t.responses = [.illegalCommand w]) && decide (t.events = [.illegalCommand]) &&
        decide (t.units = s.units) && decide (t.ports = s.ports) && decide (t.host = [])) = true := by
  decide +kernel

/-! ### From reset -/

/-- Host actions that make the bench from reset (R330 to R332). -/
def constructBoth : List HostAction :=
  [.construct 0 (.tx t0) { bytes := [], clock := 0, level := false },
   .construct 1 (.rx r1) { bytes := [0x77], clock := 123, level := true }]

/-- R60 and R61 after two construction steps. -/
theorem test_construct_both :
    let s := { State.reset with clockWidth := 32, host := constructBoth }
    let t := afterStep (afterStep s)
    t.unit 0 = some (.tx t0 { txBuf := [], tLast := 0, txPin := false }) ∧
      t.unit 1 = some (.rx r1 { idleRx with prev := true, ref := 123, rxBuf := [(0, 0x77)] }) ∧
      t.ports.trace = [.setPinMode 0 .output, .setPinMode 1 .input] := by decide +kernel

/-- The first step after reset runs the word that is placed. -/
theorem test_first_step_runs_word :
    [0x01000000, 0x02000000, 0x10000000, 0x11000000, 0x12000000, 0x13000000, 0x14000000, 0x20000000,
      0x21000000].all (fun w =>
        (nextState? (step (State.reset.withFetchWord 32 w))).isSome) = true := by decide

/-- `Memory.wf` at its edges: rising keys and no listed zero. -/
theorem test_memory_wf :
    Memory.wf [(0, 1), (1, 2)] ∧ ¬ Memory.wf [(0, 1), (0, 2)] ∧ ¬ Memory.wf [(1, 1), (0, 2)] ∧
      ¬ Memory.wf [(0, 0)] ∧ Memory.write [(0, 1), (1, 2)] 0 0 = [(1, 2)] ∧
      Memory.write [(1, 2)] 0 3 = [(0, 3), (1, 2)] := by decide

/-! ### Witnesses: states and operands that meet the statements' hypotheses -/

theorem rx_sound {W : Nat} {c : RxConfig} {r : Rx} (hl : c.legal W = true)
    (h : (decide (r.ref < 2 ^ W) && decide (r.byteCnt.toNat ≤ c.cap) &&
      (decide (r.state ≠ .framing) || decide (r.byteCnt.toNat < c.cap)) &&
      (decide (r.state ≠ .edgeCandidate) || r.prev) &&
      (decide (r.size = 0) || decide (r.size.toNat + checksumSize c.chkMode + 1 ≤ c.cap)) &&
      (!r.ready || (decide (r.state ≠ .framing) && decide (2 ≤ r.byteCnt.toNat) &&
        decide (r.byteCnt.toNat < c.cap) &&
        decide (r.size.toNat + checksumSize c.chkMode = r.byteCnt.toNat) &&
        chkOk c.chkMode r.frame)) &&
      decide (Memory.wf r.rxBuf) && decide (Memory.within c.cap r.rxBuf)) = true) :
    r.Sound W c := by
  simp only [Bool.and_eq_true, Bool.or_eq_true, decide_eq_true_eq, Bool.not_eq_true'] at h
  obtain ⟨⟨⟨⟨⟨⟨⟨h1, h2⟩, h3⟩, h4⟩, h5⟩, h6⟩, h7⟩, h8⟩ := h
  refine ⟨hl, h1, h2, fun hf => ?_, fun hc => ?_, h5, fun hr => ?_, h7, h8⟩
  · exact h3.resolve_left (fun hn => hn hf)
  · exact h4.resolve_left (fun hn => hn hc)
  · rcases h6 with hn | ⟨⟨⟨⟨a, b⟩, c⟩, d⟩, e⟩
    · simp [hr] at hn
    · exact ⟨a, b, c, d, e⟩

theorem tx_sound : quietTx.Sound 32 t0 := ⟨by decide, by decide, rfl, by decide, by decide⟩

theorem idleRx_sound : idleRx.Sound 32 r1 := rx_sound (by decide) (by decide +kernel)
theorem candidateRx_sound : candidateRx.Sound 32 r1 := rx_sound (by decide) (by decide +kernel)
theorem fullRx_sound : fullRx.Sound 32 r1 := rx_sound (by decide) (by decide +kernel)
theorem acceptedRx_sound : acceptedRx.Sound 32 r1 := rx_sound (by decide) (by decide +kernel)
theorem lastBitRx_sound : lastBitRx.Sound 32 r1 := rx_sound (by decide) (by decide +kernel)

theorem bench_sound {r : Rx} (h : r.Sound 32 r1) (time : Nat) (level : Level) (host : List HostAction) :
    (bench quietTx r time level host).Sound := by
  refine ⟨by simp [bench], by simp [bench], ?_, ?_⟩
  · intro entry he
    simp only [bench, List.mem_cons, List.not_mem_nil, or_false] at he
    rcases he with rfl | rfl
    · exact tx_sound
    · exact h
  · intro a ha b hb hp
    simp only [bench, List.mem_cons, List.not_mem_nil, or_false] at ha hb
    rcases ha with rfl | rfl <;> rcases hb with rfl | rfl <;>
      first | rfl | (simp [CodecUnit.pin, t0, r1] at hp)

theorem test_witness_DecodeInvertsEncode :
    (Instr.txSendData 255 65535).wellFormed = true ∧ (Instr.txWrite 0 0).wellFormed = true ∧
    (Instr.rxPoll 255).wellFormed = true ∧ (Instr.rxPollBlocking 0).wellFormed = true ∧
    (Instr.rxHasData 1).wellFormed = true ∧ (Instr.rxReadInto 255 65535).wellFormed = true ∧
    (Instr.rxReadSize 255).wellFormed = true ∧ (Instr.chkCrc8 65535).wellFormed = true ∧
    (Instr.chkXor 0).wellFormed = true := by decide

theorem test_witness_EncodeInvertsDecode : decode 0x13FFFFFF = .command (.rxReadInto 255 65535) := by decide

theorem test_witness_DecoderFollowsOpcodeTable :
    (∃ row ∈ opcodeRows, row.matches 0x14FF0000 = true) ∧
    (∀ row ∈ opcodeRows, row.matches 0x14FF0001 = false) := by decide

/-- The head of the host's actions is a word that decodes. -/
theorem test_witness_StepRunsTheDecodedCommand :
    (bench quietTx idleRx 0 false [.command 0x20000001 [1]]).host = .command 0x20000001 [1] :: [] ∧
      decode 0x20000001 = .command (.chkCrc8 1) := by decide

/-- The head of the host's actions is a word that does not. -/
theorem test_witness_UndecodableWordIsRefused :
    (bench quietTx idleRx 0 false [.command 0x21050003 [1]]).host = .command 0x21050003 [1] :: [] ∧
      decode 0x21050003 = .rejected .nonzeroInstance := by decide

/-- A transmitter command on a receiver, a receiver command on a transmitter, and on no unit. -/
theorem test_witness_WrongUnitIsRefused :
    let s := bench quietTx idleRx 0 false []
    (txOperand (.txWrite 1 0) = some 1 ∧ ∀ c x, s.unit 1 ≠ some (.tx c x)) ∧
    (rxOperand (.rxPoll 0) = some 0 ∧ ∀ c r, s.unit 0 ≠ some (.rx c r)) ∧
    (rxOperand (.rxReadSize 7) = some 7 ∧ ∀ c r, s.unit 7 ≠ some (.rx c r)) := by
  refine ⟨⟨rfl, ?_⟩, ⟨rfl, ?_⟩, ⟨rfl, ?_⟩⟩ <;> intro c x h <;>
    simp [State.unit, bench, Table.find] at h

theorem test_witness_IdleBlockDoesNothing : State.reset.host = [] := rfl

/-- Instance 255 on a pin neither unit has, at the capacity's upper bound. -/
theorem test_witness_ConstructedTransmitterHoldsResetValues :
    let c : TxConfig := { t0 with cap := 65535, longCount := 10, bitRate := 6000, pin := 2 }
    let draw : ResetDraw := { bytes := [1, 2], clock := 5, level := true }
    let s := bench quietTx idleRx 0 false [.construct 255 (.tx c) draw]
    s.host = .construct 255 (.tx c) draw :: [] ∧ 255 < 256 ∧ c.legal s.clockWidth = true ∧
      (∀ j u, s.unit j = some u → j ≠ 255 → u.pin ≠ c.pin) ∧ Table.sorted s.units := by
  refine ⟨rfl, by decide, by decide, ?_, by simp [bench]⟩
  intro j u h _
  simp only [State.unit, bench, Table.find] at h
  split at h <;> [skip; split at h] <;> cases h <;> decide

/-- Instance 1 again, on its own pin. -/
theorem test_witness_ConstructedReceiverHoldsResetValues :
    let c : RxConfig := { r1 with cap := 1, bitRate := 1 }
    let draw : ResetDraw := { bytes := [1, 2], clock := 5, level := true }
    let s := bench quietTx idleRx 0 false [.construct 1 (.rx c) draw]
    s.host = .construct 1 (.rx c) draw :: [] ∧ 1 < 256 ∧ c.legal s.clockWidth = true ∧
      (∀ j u, s.unit j = some u → j ≠ 1 → u.pin ≠ c.pin) ∧ Table.sorted s.units := by
  refine ⟨rfl, by decide, by decide, ?_, by simp [bench]⟩
  intro j u h hj
  simp only [State.unit, bench, Table.find] at h
  split at h <;> [skip; split at h] <;> cases h
  · decide
  · exact absurd (Eq.symm ‹1 = j›) hj

/-- Section 2.1's refused configurations, each just past its bound, and the bounds themselves. -/
theorem test_witness_IllegalConfigurationIsRefused :
    (RxConfig.legal 32 { r1 with bitRate := 0 } = false ∧
      RxConfig.legal 32 { r1 with bitRate := 1 } = true ∧
      RxConfig.legal 32 { r1 with bitRate := 6000 } = true ∧
      RxConfig.legal 32 { r1 with bitRate := 6001 } = false) ∧
    (RxConfig.legal 32 { r1 with cap := 0 } = false ∧ RxConfig.legal 32 { r1 with cap := 1 } = true ∧
      RxConfig.legal 32 { r1 with cap := 65535 } = true ∧
      RxConfig.legal 32 { r1 with cap := 65536 } = false) ∧
    (TxConfig.legal 32 { t0 with longCount := 9 } = false ∧
      TxConfig.legal 32 { t0 with longCount := 10 } = true ∧
      TxConfig.legal 32 { t0 with longCount := 65535 } = true) ∧
    (RxConfig.legal 11 r1 = false ∧ RxConfig.legal 12 r1 = true ∧ 2 ^ 11 ≤ 4 * startUs r1.bitRate) ∧
    (∃ e ∈ (bench quietTx idleRx 0 false []).units, e.1 ≠ 7 ∧ e.2.pin = t0.pin) := by decide

theorem test_witness_DerivedConstantsRoundHalfUp : 0 < 1 ∧ 0 < 6000 := by decide

theorem test_witness_WindowsSeparateLineCodeEdges : (1 ≤ 1 ∧ 1 ≤ 6000) ∧ (1 ≤ 6000 ∧ 6000 ≤ 6000) := by decide

theorem test_witness_FrameCheckComparesLastByte : ChkMode.crc8 ≠ .noCheck ∧ ChkMode.xor ≠ .noCheck := by
  decide

theorem test_witness_CrcDetectsEverySingleBitError : 0 < 8 ∧ 7 < 8 := by decide

/-- Exactly the bytes driven. -/
theorem test_witness_DataPhaseIsTheHostsBytes :
    (bench quietTx idleRx 0 false [.command 0x20000002 [1, 2]]).host = .command 0x20000002 [1, 2] :: [] ∧
      2 ≤ ([1, 2] : List Byte).length := by decide

/-- The first and the last cell of a two-byte frame, the first and the last preamble pulse. -/
theorem test_witness_WireFollowsLineCode :
    (0 < 10 ∧ 9 < 10) ∧ (0 < ([1, 2] : List Byte).length ∧ 0 < 8) ∧
      (1 < ([1, 2] : List Byte).length ∧ 7 < 8) := by decide

theorem test_witness_TxWriteTransmitsItsData :
    (bench quietTx idleRx 0 false []).unit 0 = some (.tx t0 quietTx) := by decide

theorem test_witness_TxWriteTraceCounts :
    let s := bench quietTx idleRx 0 false [.command 0x02000001 [0xA5]]
    s.unit 0 = some (.tx t0 quietTx) ∧ exec (.txWrite 0 1) s = .next (after (.txWrite 0 1) s) :=
  ⟨by decide, exec_after (by decide +kernel)⟩

/-- A payload that fills the buffer with its checksum byte. -/
theorem test_witness_TxSendDataBuildsAndTransmits :
    (bench quietTx idleRx 0 false []).unit 0 = some (.tx t0 quietTx) ∧ Memory.wf quietTx.txBuf ∧
      7 + checksumSize t0.chkMode ≤ t0.cap := by decide

/-- One byte more. -/
theorem test_witness_OversizedSendIsRejected :
    (bench quietTx idleRx 0 false []).unit 0 = some (.tx t0 quietTx) ∧
      t0.cap < 8 + checksumSize t0.chkMode := by decide

/-- The earliest close, on the shortest accepted frame of mode NONE and on V-RX18's. -/
theorem test_witness_SilenceCloseAcceptsGoodFrame :
    Accepts 32 r1 1668 fullRx ∧ Accepts 32 { r1 with chkMode := .noCheck } 1668 { fullRx with byteCnt := 2 } := by
  unfold Accepts
  decide +kernel

/-- V-RX21's one byte and V-RX22's wrong checksum. -/
theorem test_witness_SilenceCloseRejectsBadFrame :
    (fullRx.state = .framing ∧ startUs r1.bitRate < elapsed 32 1668 fullRx.ref ∧
      ¬ Accepts 32 r1 1668 { fullRx with byteCnt := 1 }) ∧
    (badRx.state = .framing ∧ startUs r1.bitRate < elapsed 32 1668 badRx.ref ∧
      ¬ Accepts 32 r1 1668 badRx) := by
  unfold Accepts
  decide +kernel

/-- Both bounds of the start window. -/
theorem test_witness_StartAcceptanceClearsTheFrame :
    candidateRx.state = .edgeCandidate ∧ false ≠ candidateRx.prev ∧
      inWin (elapsed 32 1501 candidateRx.ref) (startUs r1.bitRate) = true ∧
      inWin (elapsed 32 1833 candidateRx.ref) (startUs r1.bitRate) = true := by decide +kernel

/-- Just outside either bound. -/
theorem test_witness_NoiseReturnsToIdle :
    candidateRx.state = .edgeCandidate ∧ candidateRx.prev = true ∧ false ≠ candidateRx.prev ∧
      inWin (elapsed 32 1500 candidateRx.ref) (startUs r1.bitRate) = false ∧
      inWin (elapsed 32 1834 candidateRx.ref) (startUs r1.bitRate) = false := by decide +kernel

/-- Bit 6 and bit 7 of a byte, in the buffer's last byte and the byte before it, at both window bounds. -/
theorem test_witness_InWindowEdgeShiftsABit :
    [250, 416].all (fun e => [(6, 0), (7, 6), (7, 7)].all fun counts =>
      let r := { lastBitRx with bitCnt := BitVec.ofNat 3 counts.1, byteCnt := BitVec.ofNat 16 counts.2 }
      decide (r.state = .framing) && decide (false ≠ r.prev) &&
        decide (elapsed 32 (1000 + e) r.ref ≤ startUs r1.bitRate) &&
        inWin (elapsed 32 (1000 + e) r.ref) (frameUs r1.bitRate) && decide (Memory.wf r.rxBuf) &&
        decide (r1.cap ≤ 65535) && decide (r.byteCnt.toNat < r1.cap)) = true := by decide +kernel

/-- Just outside either bound. -/
theorem test_witness_OutOfWindowEdgeIsIgnored :
    framingRx.state = .framing ∧ true ≠ framingRx.prev ∧
      (elapsed 32 1249 framingRx.ref ≤ startUs r1.bitRate ∧
        inWin (elapsed 32 1249 framingRx.ref) (frameUs r1.bitRate) = false) ∧
      (elapsed 32 1417 framingRx.ref ≤ startUs r1.bitRate ∧
        inWin (elapsed 32 1417 framingRx.ref) (frameUs r1.bitRate) = false) := by decide +kernel

theorem test_witness_IdleEdgeIsCaught :
    (idleRx.state = .idle ∧ true ≠ idleRx.prev) ∧
      ({ idleRx with prev := true }.state = .idle ∧ false ≠ { idleRx with prev := true }.prev) := by
  decide

/-- In each of the three states. -/
theorem test_witness_EveryEdgeWritesPrev :
    [idleRx, { framingRx with ref := 1000 }, { candidateRx with prev := false }].all (fun r =>
      decide (true ≠ r.prev) &&
        decide (¬ (r.state = .framing ∧ startUs r1.bitRate < elapsed 32 1667 r.ref))) = true := by
  decide +kernel

/-- In each of the three states; FRAMING at the last moment before the close. -/
theorem test_witness_NoChangeStepWritesNothing :
    [idleRx, framingRx, { candidateRx with prev := false }].all (fun r =>
      decide (false = r.prev) &&
        decide (¬ (r.state = .framing ∧ startUs r1.bitRate < elapsed 32 1667 r.ref))) = true := by
  decide +kernel

theorem test_witness_OnlyAcceptanceReturnsASize :
    Accepts 32 r1 1668 fullRx ∧ ¬ Accepts 32 r1 1667 fullRx := by
  unfold Accepts
  decide +kernel

/-- A sound receiver in each of the three states. -/
theorem test_witness_StateTakesOnlyListedPaths :
    (idleRx.Sound 32 r1 ∧ idleRx.state = .idle) ∧
      (candidateRx.Sound 32 r1 ∧ candidateRx.state = .edgeCandidate) ∧
      (lastBitRx.Sound 32 r1 ∧ lastBitRx.state = .framing) :=
  ⟨⟨idleRx_sound, rfl⟩, ⟨candidateRx_sound, rfl⟩, ⟨lastBitRx_sound, rfl⟩⟩

theorem test_witness_AcceptedFrameSizes :
    fullRx.Sound 32 r1 ∧ (rxStep 32 r1 1668 false fullRx).ret ≠ 0 :=
  ⟨fullRx_sound, by decide +kernel⟩

/-- FRAMING in the buffer's last byte: the slot exists. -/
theorem test_witness_RxPollRunsOneStep :
    (bench quietTx lastBitRx 1333 false []).unit 1 = some (.rx r1 lastBitRx) ∧ lastBitRx.slotFree r1 := by
  refine ⟨by decide, fun _ => by decide⟩

/-- Both ends of the command's step: FRAMING stays, and FRAMING closes. -/
theorem test_witness_RxPollBlockingStepsUntilNotFraming :
    let still := bench quietTx fullRx 1667 false []
    let closes := bench quietTx fullRx 1668 false []
    (still.unit 1 = some (.rx r1 fullRx) ∧ fullRx.slotFree r1 ∧
      (stepResult still r1 fullRx).rx.state = .framing) ∧
    (closes.unit 1 = some (.rx r1 fullRx) ∧ (stepResult closes r1 fullRx).rx.state ≠ .framing) := by
  refine ⟨⟨by decide, fun _ => by decide, by decide +kernel⟩, by decide, by decide +kernel⟩

theorem test_witness_RxHasDataTestsAndClears :
    (bench quietTx fullRx 1668 false []).unit 1 = some (.rx r1 fullRx) ∧ fullRx.slotFree r1 := by
  refine ⟨by decide, fun _ => by decide⟩

/-- The whole buffer, and one byte more. -/
theorem test_witness_RxReadIntoCopiesTheBuffer :
    (bench quietTx acceptedRx 0 false []).unit 1 = some (.rx r1 acceptedRx) ∧ 8 ≤ r1.cap ∧ r1.cap < 9 := by
  decide

theorem test_witness_RxReadSizeReturnsSize :
    (bench quietTx acceptedRx 0 false []).unit 1 = some (.rx r1 acceptedRx) := by decide

/-- A state that no run reaches: FRAMING with the buffer full. -/
theorem test_witness_BitBeyondTheBufferFaults :
    let r := { framingRx with byteCnt := 8 }
    let s := bench quietTx r 1333 true []
    s.unit 1 = some (.rx r1 r) ∧ r.state = .framing ∧ r1.cap ≤ r.byteCnt.toNat ∧
      s.ports.sampleLevel s.clockWidth ≠ r.prev ∧
      elapsed s.clockWidth (s.ports.nextClock s.clockWidth) r.ref ≤ startUs r1.bitRate ∧
      inWin (elapsed s.clockWidth (s.ports.nextClock s.clockWidth) r.ref) (frameUs r1.bitRate) = true := by
  decide +kernel

/-- One-byte receiver at 6000 bit/s with a 12-bit clock and a line sampled every microsecond. -/
def tightConfig : RxConfig := { bitRate := 6000, chkMode := .crc8, cap := 1, pin := 1 }

def tightRx : Rx := { idleRx with state := .framing, ref := 0 }

def tightState : State :=
  { clockWidth := 12, units := [(255, .rx tightConfig tightRx)],
    host := [.command (encode (.rxPollBlocking 255)) []], responses := [], events := [],
    ports :=
      { time := 0, gaps := List.replicate 3007 1, levels := [], delays := [], drawn := 0, trace := [] } }

theorem tightRx_sound : tightRx.Sound 12 tightConfig := rx_sound (by decide) (by decide +kernel)

theorem tightState_sound : tightState.Sound := by
  have only : ∀ entry ∈ tightState.units, entry = (255, .rx tightConfig tightRx) :=
    fun entry he => List.mem_singleton.mp he
  refine ⟨List.pairwise_singleton _ _, fun entry he => ?_, fun entry he => ?_, fun a ha b hb _ => ?_⟩
  · rw [only entry he]
    decide
  · rw [only entry he]
    exact tightRx_sound
  · rw [only a ha, only b hb]

theorem test_witness_PollBlockingEndsWhenTimeGoesOn :
    tightState.Sound ∧ tightState.unit 255 = some (.rx tightConfig tightRx) ∧ 255 < 256 ∧
      tightState.host = [.command (encode (.rxPollBlocking 255)) []] ∧
      8 * tightConfig.cap * (startUs tightConfig.bitRate + 1) + startUs tightConfig.bitRate + 2 ≤ 3007 ∧
      3007 ≤ tightState.ports.gaps.length ∧
      ∀ g ∈ tightState.ports.gaps, 1 ≤ g ∧ g < 2 ^ tightState.clockWidth - startUs tightConfig.bitRate := by
  refine ⟨tightState_sound, by decide, by decide, rfl, by decide,
    Nat.le_of_eq (List.length_replicate).symm, ?_⟩
  intro g hg
  rw [List.eq_of_mem_replicate (show g ∈ List.replicate 3007 1 from hg)]
  decide

theorem test_witness_StoppedClockLeavesPollBlockingPending :
    let s : State :=
      { tightState with
        ports := { time := 333, gaps := List.replicate 3 0, levels := List.replicate 3 false, delays := [],
                   drawn := 0, trace := [] } }
    s.unit 255 = some (.rx tightConfig tightRx) ∧ tightRx.slotFree tightConfig ∧
      tightRx.state = .framing ∧ s.host = .command (encode (.rxPollBlocking 255)) [] :: [] ∧
      elapsed s.clockWidth (clockValue s.clockWidth s.ports.time) tightRx.ref ≤
        startUs tightConfig.bitRate ∧
      s.ports.gaps = List.replicate 3 0 ∧ s.ports.levels = List.replicate 3 tightRx.prev := by
  refine ⟨by decide, fun _ => by decide, rfl, rfl, by decide +kernel, rfl, rfl⟩

/-- A step of a sound machine that closes a frame. -/
theorem test_witness_EveryStepKeepsSoundness :
    let s := bench quietTx fullRx 1668 false [.command 0x10010000 []]
    s.Sound ∧ step s = .next (afterStep s) :=
  ⟨bench_sound fullRx_sound _ _ _, step_afterStep (by decide +kernel)⟩

theorem test_witness_SoundMachineNeverFaults :
    (bench quietTx lastBitRx 1333 true [.command 0x10010000 []]).Sound :=
  bench_sound lastBitRx_sound _ _ _

/-- A command whose own unit is not 0. -/
theorem test_witness_CommandActsOnItsUnitOnly :
    let s := bench quietTx fullRx 1668 false [.command 0x10010000 []]
    exec (.rxPoll 1) s = .next (after (.rxPoll 1) s) ∧ txOperand (.rxPoll 1) ≠ some 0 ∧
      rxOperand (.rxPoll 1) ≠ some 0 :=
  ⟨exec_after (by decide +kernel), by decide, by decide⟩

theorem test_witness_CommandsKeepEveryConfiguration :
    let s := bench quietTx fullRx 1668 false [.command 0x12010000 []]
    exec (.rxHasData 1) s = .next (after (.rxHasData 1) s) := exec_after (by decide +kernel)

/-- Two machines whose transmitters differ. -/
theorem test_witness_OtherUnitsHaveNoInfluence :
    let s₁ := bench quietTx fullRx 1668 false [.command 0x10010000 []]
    let s₂ := bench { quietTx with tLast := 99 } fullRx 1668 false [.command 0x10010000 []]
    s₁.clockWidth = s₂.clockWidth ∧ s₁.ports = s₂.ports ∧ s₁.host = s₂.host ∧
      s₁.responses = s₂.responses ∧ s₁.events = s₂.events ∧
      (∀ k, txOperand (.rxPoll 1) = some k ∨ rxOperand (.rxPoll 1) = some k → s₁.unit k = s₂.unit k) ∧
      exec (.rxPoll 1) s₁ = .next (after (.rxPoll 1) s₁) ∧ s₁ ≠ s₂ := by
  refine ⟨rfl, rfl, rfl, rfl, rfl, ?_, exec_after (by decide +kernel), by decide⟩
  intro k hk
  simp only [txOperand, rxOperand, reduceCtorEq, Option.some.injEq, false_or] at hk
  subst hk
  decide

/-- The flag set by a close, cleared by a start acceptance, and cleared by RX_HAS_DATA. -/
theorem test_witness_ReadyHasThreeWriters :
    let s := bench quietTx fullRx 1668 false [.command 0x10010000 []]
    let cand := { acceptedRx with state := .edgeCandidate, prev := true }
    let u := bench quietTx cand 1667 false [.command 0x10010000 []]
    let v := bench quietTx acceptedRx 1700 false [.command 0x12010000 []]
    (exec (.rxPoll 1) s = .next (after (.rxPoll 1) s) ∧ s.unit 1 = some (.rx r1 fullRx) ∧
      (after (.rxPoll 1) s).unit 1 = some (.rx r1 acceptedRx) ∧ fullRx.ready = false ∧
      acceptedRx.ready = true) ∧
    (exec (.rxPoll 1) u = .next (after (.rxPoll 1) u) ∧ u.unit 1 = some (.rx r1 cand) ∧
      (after (.rxPoll 1) u).unit 1 = some (.rx r1 { framingRx with ref := 1667, size := 4 })) ∧
    (exec (.rxHasData 1) v = .next (after (.rxHasData 1) v) ∧
      v.unit 1 = some (.rx r1 acceptedRx) ∧
      (after (.rxHasData 1) v).unit 1 = some (.rx r1 { acceptedRx with ready := false })) := by
  refine ⟨⟨exec_after (by decide +kernel), by decide, by decide +kernel, rfl, rfl⟩,
    ⟨exec_after (by decide +kernel), by decide +kernel, by decide +kernel⟩,
    ⟨exec_after (by decide +kernel), by decide +kernel, by decide +kernel⟩⟩

theorem test_witness_OnlyAcceptanceWritesSize :
    let s := bench quietTx fullRx 1668 false [.command 0x10010000 []]
    exec (.rxPoll 1) s = .next (after (.rxPoll 1) s) ∧ s.unit 1 = some (.rx r1 fullRx) ∧
      (after (.rxPoll 1) s).unit 1 = some (.rx r1 acceptedRx) ∧ acceptedRx.size ≠ fullRx.size :=
  ⟨exec_after (by decide +kernel), by decide, by decide +kernel, by decide⟩

theorem test_witness_OnlySendDataWritesTxBuf :
    let s := bench quietTx idleRx 0 false [.command 0x02000001 [0xA5]]
    exec (.txWrite 0 1) s = .next (after (.txWrite 0 1) s) ∧ s.unit 0 = some (.tx t0 quietTx) ∧
      (after (.txWrite 0 1) s).unit 0 = some (.tx t0 { quietTx with tLast := 0 }) ∧
      ∀ n, Instr.txWrite 0 1 ≠ .txSendData 0 n :=
  ⟨exec_after (by decide +kernel), by decide, by decide +kernel, by simp⟩

/-- Each of the four commands, issued twice. -/
theorem test_witness_ReadingCommandsAreIdempotent :
    [(Instr.rxReadInto 1 4, 0x13010004), (.rxReadSize 1, 0x14010000), (.chkCrc8 2, 0x20000002),
      (.chkXor 2, 0x21000002)].all (fun p =>
        let s := bench quietTx acceptedRx 0 false [.command p.2 [1, 2], .command p.2 [1, 2]]
        (nextState? (exec p.1 s)).isSome && (nextState? (exec p.1 (after p.1 s))).isSome) = true := by
  decide +kernel

theorem test_witness_HostTimeNeverGoesBack :
    let s := bench quietTx idleRx 5 false [.command 0x10010000 []]
    step s = .next (afterStep s) := step_afterStep (by decide +kernel)

/-- Writing the unlisted value, and another. -/
theorem test_witness_BufferReadsWhatWasWritten : Memory.wf [(0, 1), (65534, 0xFF)] := by decide

theorem test_witness_EqualReadsAreEqualBuffers :
    let m := Memory.write (Memory.write [] 1 2) 0 1
    let n := Memory.write (Memory.write [] 0 1) 1 2
    Memory.wf m ∧ Memory.wf n ∧ ∀ i, Memory.read m i = Memory.read n i := by
  refine ⟨by decide, by decide, fun i => rfl⟩

/-- V-S1's payload, and the longest one R346 allows at this capacity. -/
theorem test_witness_ReceiverDecodesTransmittedFrame :
    t0.legal 32 = true ∧ r1.legal 32 = true ∧ t0.bitRate = r1.bitRate ∧ t0.chkMode = r1.chkMode ∧
      [[0x04, 0x03, 0x02, 0x01], [1, 2, 3, 4, 5, 6], [9]].all (fun (payload : List Byte) =>
        decide (2 ≤ payload.length + checksumSize r1.chkMode) &&
          decide (payload.length + checksumSize r1.chkMode ≤ r1.cap - 1)) = true ∧
      idleRx.Sound 32 r1 ∧ idleRx.state = .idle ∧ idleRx.prev = false ∧ 1 ≤ 1 ∧ 1 ≤ startUs r1.bitRate ∧
      startUs r1.bitRate ≤ startUs r1.bitRate := by
  refine ⟨by decide, by decide, rfl, rfl, by decide, idleRx_sound, rfl, rfl, by decide, by decide,
    Nat.le_refl _⟩

end Sys2Proof.Tests
end

section
/-! SUPPORT. Which segment of a transmission stands at which place on the wire
(spec/30_encoding.md R111 to R114). -/

namespace Sys2Proof.Machine

/-- A concatenation of blocks of one length `n` is indexed by block and place in the block. -/
theorem flatten_getElem?_of_length_eq {α : Type} {n : Nat} (blocks : List (List α))
    (hlen : ∀ block ∈ blocks, block.length = n) (i : Nat) {j : Nat} (hj : j < n) :
    blocks.flatten[n * i + j]? = blocks[i]?.bind (·[j]?) := by
  induction blocks generalizing i with
  | nil => simp
  | cons block rest ih =>
    have hblock : block.length = n := hlen block List.mem_cons_self
    cases i with
    | zero => simp [List.getElem?_append_left (hblock ▸ hj)]
    | succ i =>
      have hskip : n * (i + 1) + j = block.length + (n * i + j) := by rw [hblock]; ring
      rw [List.flatten_cons, hskip, List.getElem?_append_right (Nat.le_add_right ..),
        Nat.add_sub_cancel_left, ih (fun b hb => hlen b (List.mem_cons_of_mem _ hb)),
        List.getElem?_cons_succ]

theorem flatMap_getElem?_of_length_eq {α β : Type} {n : Nat} (f : α → List β)
    (hlen : ∀ a, (f a).length = n) (l : List α) (i : Nat) {j : Nat} (hj : j < n) :
    (l.flatMap f)[n * i + j]? = l[i]?.bind (fun a => (f a)[j]?) := by
  rw [List.flatMap_def, flatten_getElem?_of_length_eq _ (by simp [hlen]) i hj,
    List.getElem?_map, Option.bind_map]
  rfl

@[simp] theorem preamblePulse_length (b : Nat) : (preamblePulse b).length = 2 := rfl

@[simp] theorem startMarker_length (b : Nat) : (startMarker b).length = 2 := rfl

@[simp] theorem bitCell_length (b : Nat) (bit : Bool) : (bitCell b bit).length = 2 := rfl

@[simp] theorem byteBits_length (d : Byte) : (byteBits d).length = 8 := rfl

theorem byteBits_getElem? (d : Byte) {j : Nat} (hj : j < 8) :
    (byteBits d)[j]? = some (d.getLsbD j) := by
  simp [byteBits, hj]

/-- R114: frame bit `8k + j` is bit `j` of frame byte `k`. -/
theorem frameBits_getElem? (frame : List Byte) {k j : Nat} (hk : k < frame.length) (hj : j < 8) :
    (frameBits frame)[8 * k + j]? = some ((frame.getD k 0).getLsbD j) := by
  rw [frameBits, flatMap_getElem?_of_length_eq _ byteBits_length _ _ hj]
  simp [hk, byteBits_getElem? _ hj]

theorem txSegments_length (b pulses : Nat) (frame : List Byte) :
    (txSegments b pulses frame).length = 2 * pulses + 2 + 16 * frame.length := by
  simp [txSegments, List.length_flatMap, frameBits_length]
  omega

/-- R111: segments `2k` and `2k + 1` are the phases of preamble pulse `k`. -/
theorem txSegments_getElem?_preamble (b : Nat) {pulses k j : Nat} (frame : List Byte)
    (hk : k < pulses) (hj : j < 2) :
    (txSegments b pulses frame)[2 * k + j]? = (preamblePulse b)[j]? := by
  have hlen : ∀ block ∈ List.replicate pulses (preamblePulse b), block.length = 2 := by
    simp +contextual
  have hin : 2 * k + j < (List.replicate pulses (preamblePulse b)).flatten.length := by
    simp; omega
  rw [txSegments, List.append_assoc, List.getElem?_append_left hin,
    flatten_getElem?_of_length_eq _ hlen k hj]
  simp [hk]

/-- R112: the start marker stands right behind the preamble. -/
theorem txSegments_getElem?_startMarker (b pulses : Nat) {j : Nat} (frame : List Byte)
    (hj : j < 2) :
    (txSegments b pulses frame)[2 * pulses + j]? = (startMarker b)[j]? := by
  have hpre : (List.replicate pulses (preamblePulse b)).flatten.length = 2 * pulses := by
    simp; omega
  rw [txSegments, List.append_assoc, ← hpre, List.getElem?_append_right (Nat.le_add_right ..),
    Nat.add_sub_cancel_left, List.getElem?_append_left hj]

/-- R113: the bit cells follow the start marker in the order of the frame's bits. -/
theorem txSegments_getElem?_bitCell (b pulses i : Nat) {j : Nat} (frame : List Byte)
    (hj : j < 2) :
    (txSegments b pulses frame)[2 * pulses + 2 + (2 * i + j)]? =
      (frameBits frame)[i]?.bind (fun bit => (bitCell b bit)[j]?) := by
  have hhead : ((List.replicate pulses (preamblePulse b)).flatten ++ startMarker b).length =
      2 * pulses + 2 := by
    simp; omega
  rw [txSegments, ← hhead, List.getElem?_append_right (Nat.le_add_right ..),
    Nat.add_sub_cancel_left, flatMap_getElem?_of_length_eq _ (bitCell_length b) _ _ hj]

/-- R113 and R114: the two halves of the cell of bit `j` of byte `k`. -/
theorem txSegments_getElem?_frameBit (b pulses : Nat) {k j half : Nat} (frame : List Byte)
    (hk : k < frame.length) (hj : j < 8) (hhalf : half < 2) :
    (txSegments b pulses frame)[2 * pulses + 2 + (2 * (8 * k + j) + half)]? =
      (bitCell b ((frame.getD k 0).getLsbD j))[half]? := by
  rw [txSegments_getElem?_bitCell b pulses _ frame hhalf, frameBits_getElem? frame hk hj,
    Option.bind_some]

/-- Settles O21: each segment is read off the part of the transmission it lies in. -/
theorem wireFollowsLineCode : Obligations.WireFollowsLineCode := by
  intro b pulses frame
  refine ⟨txSegments_length b pulses frame, fun k hk => ⟨?_, ?_⟩, ?_, ?_,
    fun k j hk hj => ⟨?_, ?_⟩⟩
  · exact txSegments_getElem?_preamble b frame hk (j := 0) (by decide)
  · exact txSegments_getElem?_preamble b frame hk (j := 1) (by decide)
  · exact txSegments_getElem?_startMarker b pulses frame (j := 0) (by decide)
  · exact txSegments_getElem?_startMarker b pulses frame (j := 1) (by decide)
  · exact txSegments_getElem?_frameBit b pulses frame hk hj (half := 0) (by decide)
  · exact txSegments_getElem?_frameBit b pulses frame hk hj (half := 1) (by decide)

end Sys2Proof.Machine
end

section
/-! SUPPORT. The state a command that transmits leaves, and TX_WRITE
(spec/40_transmit.md R150 to R155). -/

namespace Sys2Proof.Machine

/-- A transmission takes the gap before its clock sample and the actual durations of its segments
(R150, R153). -/
theorem transmit_time (W : Nat) (c : TxConfig) (x : Tx) (frame : List Byte) (p : Ports) :
    (transmit W c x frame p).2.time =
      p.time + p.nextGap + (waits (p.now W)
        (txSegments c.bitRate (preambleCount W c x.tLast (p.nextClock W)) frame)).sum := by
  simp [transmit, drivePin, emits_time]

/-- The state when the transmitter `k`, at the registers `x`, has sent `frame` and its command has
returned `resp`. -/
def afterTransmit (k : Nat) (c : TxConfig) (x : Tx) (frame : List Byte) (resp : Response)
    (s : State) : State :=
  let run := transmit s.clockWidth c x frame s.ports
  ((s.setPorts run.2).setUnit k (.tx c run.1)).retire resp

/-- TX_WRITE on a transmitter sends the data phase. -/
theorem execTxWrite_eq {s : State} {k : Nat} {c : TxConfig} {x : Tx}
    (hunit : s.unit k = some (.tx c x)) (n : Nat) :
    execTxWrite k n s = .next (afterTransmit k c x (s.dataPhase n) .write s) := by
  simp [execTxWrite, State.findTx_eq.mpr hunit, afterTransmit]

section
variable (k : Nat) (c : TxConfig) (x : Tx) (frame : List Byte) (resp : Response) (s : State)

@[simp] theorem afterTransmit_events :
    (afterTransmit k c x frame resp s).events = s.events := rfl

@[simp] theorem afterTransmit_ports :
    (afterTransmit k c x frame resp s).ports = (transmit s.clockWidth c x frame s.ports).2 := rfl

@[simp] theorem afterTransmit_unit_self :
    (afterTransmit k c x frame resp s).unit k =
      some (.tx c { x with tLast := s.ports.nextClock s.clockWidth, txPin := false }) := by
  simp [afterTransmit, transmit_tx]

theorem afterTransmit_unit_ne {j : Nat} (hj : j ≠ k) :
    (afterTransmit k c x frame resp s).unit j = s.unit j := by
  simp [afterTransmit, State.setUnit_unit_ne _ hj]

theorem answered_afterTransmit : Answered s (afterTransmit k c x frame resp s) resp :=
  ⟨rfl, rfl⟩

theorem othersKept_afterTransmit : OthersKept k s (afterTransmit k c x frame resp s) :=
  ⟨rfl, fun _ hj => afterTransmit_unit_ne k c x frame resp s hj⟩

/-- The actual durations of a transmission are the waits its ports give after the clock sample;
`preambleCount` is by definition the pulse count that `Transmitted` writes out. -/
theorem transmitted_afterTransmit :
    Transmitted k c x frame s (afterTransmit k c x frame resp s) := by
  refine ⟨afterTransmit_unit_self k c x frame resp s,
    waits (s.ports.now s.clockWidth) (txSegments c.bitRate
      (preambleCount s.clockWidth c x.tLast (s.ports.nextClock s.clockWidth)) frame),
    waits_length .., ?_, ?_, ?_, ?_⟩
  · rw [afterTransmit_ports]; exact transmit_trace ..
  · rw [afterTransmit_ports]; exact transmit_time ..
  · rw [afterTransmit_ports]; exact transmit_gaps ..
  · rw [afterTransmit_ports]; exact transmit_levels ..

end

/-- Settles O23: the command answers `afterTransmit` of its data phase. -/
theorem txWriteTransmitsItsData : Obligations.TxWriteTransmitsItsData := by
  intro s k n c x hunit
  exact ⟨afterTransmit k c x (s.dataPhase n) .write s, execTxWrite_eq hunit n,
    transmitted_afterTransmit .., answered_afterTransmit .., othersKept_afterTransmit ..,
    afterTransmit_events ..⟩

end Sys2Proof.Machine
end

section
/-! SUPPORT. The receiver step's accepting close, its edge rule for `PREV` and its idle row
(spec/41_receive.md R192 to R194, R206, R208). -/

namespace Sys2Proof.Machine

/-- R13's silence as the inequality the statements write. -/
theorem isSilence_iff (e b : Nat) : isSilence e b = true ↔ startUs b < e := by
  simp [isSilence]

/-- R193, R194: a frame of two bytes or more with a good checksum is exposed. -/
theorem closeFrame_accept {c : RxConfig} {r : Rx} (hlen : 2 ≤ r.byteCnt.toNat)
    (hchk : chkOk c.chkMode r.frame = true) :
    closeFrame c r =
      ⟨Rx.expose c.chkMode { r with state := .idle },
        (Rx.expose c.chkMode { r with state := .idle }).size, none⟩ := by
  simp [closeFrame, hchk, Nat.not_lt.mpr hlen]

/-- R194: `BYTECNT - CS` does not wrap when the checksum byte is among the bytes received. -/
theorem Rx.expose_size_toNat_add {m : ChkMode} {r : Rx} (h : checksumSize m ≤ r.byteCnt.toNat) :
    (r.expose m).size.toNat + checksumSize m = r.byteCnt.toNat := by
  have hbyte := r.byteCnt.isLt
  simp only [Rx.expose, BitVec.toNat_sub, BitVec.toNat_ofNat]
  omega

/-- R206: whatever the classification wrote, the edge processing ends with `PREV` the level. -/
@[simp] theorem processEdge_prev (c : RxConfig) (t : Nat) (level : Level) (e : Nat) (r : Rx) :
    (processEdge c t level e r).rx.prev = level := rfl

/-- Settles O27: the step is the close, which exposes the frame; one checksum byte at most makes the
subtraction exact. -/
theorem silenceCloseAcceptsGoodFrame : Obligations.SilenceCloseAcceptsGoodFrame := by
  intro W t c r level ⟨hframing, hsilence, hlen, hchk⟩
  have hstep := (rxStep_close (level := level) hframing ((isSilence_iff _ _).mpr hsilence)).trans
    (closeFrame_accept hlen hchk)
  have hcs : checksumSize c.chkMode ≤ r.byteCnt.toNat :=
    (checksumSize_le_one c.chkMode).trans (by omega)
  exact ⟨_, Rx.expose_size_toNat_add (r := { r with state := .idle }) hcs, hstep⟩

/-- Settles O34: with no close the step is the edge processing, which writes `PREV` last. -/
theorem everyEdgeWritesPrev : Obligations.EveryEdgeWritesPrev := by
  intro W t c r level hedge hopen
  rw [rxStep_edge (by rwa [isSilence_iff]) hedge, processEdge_prev]

/-- Settles O35: with no close and no edge the step is the row that does nothing. -/
theorem noChangeStepWritesNothing : Obligations.NoChangeStepWritesNothing := by
  intro W t c r level hsame hopen
  exact rxStep_noEdge (by rwa [isSilence_iff]) hsame

end Sys2Proof.Machine
end

section
/-! SUPPORT. A sequence followed by its own checksum (spec/42_checksum.md R263). -/

namespace Sys2Proof.Machine

/-- The input byte equal to the register cancels it, and the shifts of 0 give 0 (R260). -/
@[simp] theorem crcByte_self (c : Byte) : crcByte c c = 0 := by
  simp [crcByte]

/-- Settles O16: the last byte of the sequence meets itself in the register. -/
theorem checksumVerifiesItself : Obligations.ChecksumVerifiesItself := by
  intro s
  constructor
  · rw [crc8_snoc, crcByte_self]
  · rw [xor8_snoc]
    exact BitVec.xor_self

end Sys2Proof.Machine
end

section
/-! SUPPORT. The decoder field by field, and its agreement with the encoder and with the opcode
table (spec/30_encoding.md R120 to R125). -/

namespace Sys2Proof

/-! ### Fields -/

/-- A word is its three fields, one behind the other (R120). -/
theorem word_eq_append (w : CommandWord) :
    w.extractLsb' 24 8 ++ w.extractLsb' 16 8 ++ w.extractLsb' 0 16 = w := by
  rw [BitVec.extractLsb'_append_extractLsb'_eq_extractLsb' (start₂ := 24) (start₁ := 16) rfl,
    BitVec.extractLsb'_append_extractLsb'_eq_extractLsb' (start₂ := 16) (start₁ := 0) rfl]
  exact BitVec.extractLsb'_eq_self

/-- Assembling a word's own fields gives the word. -/
theorem assemble_of_fields {w : CommandWord} {opc : BitVec 8} {inst n : Nat}
    (hopc : opcField w = opc.toNat) (hinst : instField w = inst) (hn : countField w = n) :
    assemble opc inst n = w := by
  have hopc' : opc = w.extractLsb' 24 8 := BitVec.eq_of_toNat_eq hopc.symm
  have hinst' : BitVec.ofNat 8 inst = w.extractLsb' 16 8 := by
    rw [← hinst, instField, BitVec.ofNat_toNat, BitVec.setWidth_eq]
  have hn' : BitVec.ofNat 16 n = w.extractLsb' 0 16 := by
    rw [← hn, countField, BitVec.ofNat_toNat, BitVec.setWidth_eq]
  rw [assemble, hopc', hinst', hn', word_eq_append]

theorem instField_lt (w : CommandWord) : instField w < 256 := (w.extractLsb' 16 8).isLt

theorem countField_lt (w : CommandWord) : countField w < 65536 := (w.extractLsb' 0 16).isLt

/-! ### The decoder, one equation per opcode (R122, R123) -/

section
variable {w : CommandWord}

theorem decode_txSendData (h : opcField w = 0x01) :
    decode w = .command (.txSendData (instField w) (countField w)) := by simp [decode, h]

theorem decode_txWrite (h : opcField w = 0x02) :
    decode w = .command (.txWrite (instField w) (countField w)) := by simp [decode, h]

theorem decode_rxPoll (h : opcField w = 0x10) :
    decode w = withoutCount (countField w) (.rxPoll (instField w)) := by simp [decode, h]

theorem decode_rxPollBlocking (h : opcField w = 0x11) :
    decode w = withoutCount (countField w) (.rxPollBlocking (instField w)) := by simp [decode, h]

theorem decode_rxHasData (h : opcField w = 0x12) :
    decode w = withoutCount (countField w) (.rxHasData (instField w)) := by simp [decode, h]

theorem decode_rxReadInto (h : opcField w = 0x13) :
    decode w = .command (.rxReadInto (instField w) (countField w)) := by simp [decode, h]

theorem decode_rxReadSize (h : opcField w = 0x14) :
    decode w = withoutCount (countField w) (.rxReadSize (instField w)) := by simp [decode, h]

theorem decode_chkCrc8 (h : opcField w = 0x20) :
    decode w = withoutInst (instField w) (.chkCrc8 (countField w)) := by simp [decode, h]

theorem decode_chkXor (h : opcField w = 0x21) :
    decode w = withoutInst (instField w) (.chkXor (countField w)) := by simp [decode, h]

end

theorem withoutCount_of_eq {n : Nat} (h : n = 0) (i : Instr) : withoutCount n i = .command i := by
  simp [withoutCount, h]

theorem withoutInst_of_eq {inst : Nat} (h : inst = 0) (i : Instr) :
    withoutInst inst i = .command i := by simp [withoutInst, h]

@[simp] theorem withoutCount_eq_command {n : Nat} {i j : Instr} :
    withoutCount n i = .command j ↔ n = 0 ∧ i = j := by
  by_cases h : n = 0 <;> simp [withoutCount, h]

@[simp] theorem withoutInst_eq_command {inst : Nat} {i j : Instr} :
    withoutInst inst i = .command j ↔ inst = 0 ∧ i = j := by
  by_cases h : inst = 0 <;> simp [withoutInst, h]

theorem withoutCount_of_ne {n : Nat} (h : n ≠ 0) (i : Instr) :
    withoutCount n i = .rejected .nonzeroCount := by simp [withoutCount, h]

theorem withoutInst_of_ne {inst : Nat} (h : inst ≠ 0) (i : Instr) :
    withoutInst inst i = .rejected .nonzeroInstance := by simp [withoutInst, h]

/-- Settles O2: the word carries the opcode and the operands (Laws.EncodingFields), and the
decoder's equation for that opcode reads them back. -/
theorem decodeInvertsEncode : Obligations.DecodeInvertsEncode := by
  intro i hwf
  cases i with
  | txSendData inst n =>
    obtain ⟨hinst, hn⟩ := Laws.EncodingFields.txSendData inst n hwf
    rw [decode_txSendData (opcField_assemble ..), hinst, hn]
  | txWrite inst n =>
    obtain ⟨hinst, hn⟩ := Laws.EncodingFields.txWrite inst n hwf
    rw [decode_txWrite (opcField_assemble ..), hinst, hn]
  | rxPoll inst =>
    obtain ⟨hinst, hn⟩ := Laws.EncodingFields.rxPoll inst hwf
    rw [decode_rxPoll (opcField_assemble ..), withoutCount_of_eq hn, hinst]
  | rxPollBlocking inst =>
    obtain ⟨hinst, hn⟩ := Laws.EncodingFields.rxPollBlocking inst hwf
    rw [decode_rxPollBlocking (opcField_assemble ..), withoutCount_of_eq hn, hinst]
  | rxHasData inst =>
    obtain ⟨hinst, hn⟩ := Laws.EncodingFields.rxHasData inst hwf
    rw [decode_rxHasData (opcField_assemble ..), withoutCount_of_eq hn, hinst]
  | rxReadInto inst n =>
    obtain ⟨hinst, hn⟩ := Laws.EncodingFields.rxReadInto inst n hwf
    rw [decode_rxReadInto (opcField_assemble ..), hinst, hn]
  | rxReadSize inst =>
    obtain ⟨hinst, hn⟩ := Laws.EncodingFields.rxReadSize inst hwf
    rw [decode_rxReadSize (opcField_assemble ..), withoutCount_of_eq hn, hinst]
  | chkCrc8 n =>
    obtain ⟨hinst, hn⟩ := Laws.EncodingFields.chkCrc8 n hwf
    rw [decode_chkCrc8 (opcField_assemble ..), withoutInst_of_eq hinst, hn]
  | chkXor n =>
    obtain ⟨hinst, hn⟩ := Laws.EncodingFields.chkXor n hwf
    rw [decode_chkXor (opcField_assemble ..), withoutInst_of_eq hinst, hn]

/-- Every opcode is one of the map's nine or none of them (R122). -/
theorem opcode_cases (opc : Nat) :
    opc = 0x01 ∨ opc = 0x02 ∨ opc = 0x10 ∨ opc = 0x11 ∨ opc = 0x12 ∨ opc = 0x13 ∨ opc = 0x14 ∨
      opc = 0x20 ∨ opc = 0x21 ∨
      (opc ≠ 0x01 ∧ opc ≠ 0x02 ∧ opc ≠ 0x10 ∧ opc ≠ 0x11 ∧ opc ≠ 0x12 ∧ opc ≠ 0x13 ∧ opc ≠ 0x14 ∧
        opc ≠ 0x20 ∧ opc ≠ 0x21) := by
  omega

/-- R123: no other opcode decodes. -/
theorem decode_unknown {w : CommandWord}
    (h : opcField w ≠ 0x01 ∧ opcField w ≠ 0x02 ∧ opcField w ≠ 0x10 ∧ opcField w ≠ 0x11 ∧
      opcField w ≠ 0x12 ∧ opcField w ≠ 0x13 ∧ opcField w ≠ 0x14 ∧ opcField w ≠ 0x20 ∧
      opcField w ≠ 0x21) : decode w = .rejected .unknownOpcode := by
  simp [decode, h]

/-- Settles O3: in the case of its opcode a word's command is made of the word's own fields, so it
assembles to the word and its operands are in range. -/
theorem encodeInvertsDecode : Obligations.EncodeInvertsDecode := by
  intro w i hdec
  have hinst := instField_lt w
  have hn := countField_lt w
  rcases opcode_cases (opcField w) with h | h | h | h | h | h | h | h | h | h
  · obtain rfl : _ = i := by simpa [decode_txSendData h] using hdec
    exact ⟨assemble_of_fields h rfl rfl, by simp [Instr.wellFormed, hinst, hn]⟩
  · obtain rfl : _ = i := by simpa [decode_txWrite h] using hdec
    exact ⟨assemble_of_fields h rfl rfl, by simp [Instr.wellFormed, hinst, hn]⟩
  · obtain ⟨hzero, rfl⟩ : countField w = 0 ∧ _ = i := by simpa [decode_rxPoll h] using hdec
    exact ⟨assemble_of_fields h rfl hzero, by simp [Instr.wellFormed, hinst]⟩
  · obtain ⟨hzero, rfl⟩ : countField w = 0 ∧ _ = i := by simpa [decode_rxPollBlocking h] using hdec
    exact ⟨assemble_of_fields h rfl hzero, by simp [Instr.wellFormed, hinst]⟩
  · obtain ⟨hzero, rfl⟩ : countField w = 0 ∧ _ = i := by simpa [decode_rxHasData h] using hdec
    exact ⟨assemble_of_fields h rfl hzero, by simp [Instr.wellFormed, hinst]⟩
  · obtain rfl : _ = i := by simpa [decode_rxReadInto h] using hdec
    exact ⟨assemble_of_fields h rfl rfl, by simp [Instr.wellFormed, hinst, hn]⟩
  · obtain ⟨hzero, rfl⟩ : countField w = 0 ∧ _ = i := by simpa [decode_rxReadSize h] using hdec
    exact ⟨assemble_of_fields h rfl hzero, by simp [Instr.wellFormed, hinst]⟩
  · obtain ⟨hzero, rfl⟩ : instField w = 0 ∧ _ = i := by simpa [decode_chkCrc8 h] using hdec
    exact ⟨assemble_of_fields h hzero rfl, by simp [Instr.wellFormed, hn]⟩
  · obtain ⟨hzero, rfl⟩ : instField w = 0 ∧ _ = i := by simpa [decode_chkXor h] using hdec
    exact ⟨assemble_of_fields h hzero rfl, by simp [Instr.wellFormed, hn]⟩
  · simp [decode_unknown h] at hdec

/-! ### The opcode table -/

theorem append_inj {m n : Nat} {a a' : BitVec m} {b b' : BitVec n} :
    a ++ b = a' ++ b' ↔ a = a' ∧ b = b' := by
  constructor
  · intro h
    have hleft := congrArg (BitVec.extractLsb' n m) h
    have hright := congrArg (BitVec.extractLsb' 0 n) h
    rw [BitVec.extractLsb'_append_eq_left, BitVec.extractLsb'_append_eq_left] at hleft
    rw [BitVec.extractLsb'_append_eq_right, BitVec.extractLsb'_append_eq_right] at hright
    exact ⟨hleft, hright⟩
  · rintro ⟨rfl, rfl⟩; rfl

/-- A row whose mask and pattern are written as fields takes a word field by field. -/
theorem matches_iff (name : String) (po mo pi mi : BitVec 8) (pn mn : BitVec 16) (w : CommandWord) :
    OpcodeRow.matches ⟨name, po ++ pi ++ pn, mo ++ mi ++ mn⟩ w = true ↔
      w.extractLsb' 24 8 &&& mo = po ∧ w.extractLsb' 16 8 &&& mi = pi ∧
        w.extractLsb' 0 16 &&& mn = pn := by
  have happend : w &&& (mo ++ mi ++ mn) =
      (w.extractLsb' 24 8 &&& mo) ++ (w.extractLsb' 16 8 &&& mi) ++
        (w.extractLsb' 0 16 &&& mn) := by
    rw [← BitVec.and_append, ← BitVec.and_append, word_eq_append]
  rw [OpcodeRow.matches, decide_eq_true_eq, happend, append_inj, append_inj, and_assoc]

/-- A row that fixes the opcode only. -/
theorem matches_opcode (name : String) (opc : BitVec 8) (w : CommandWord) :
    OpcodeRow.matches ⟨name, opc ++ 0x00#8 ++ 0x0000#16, 0xFF#8 ++ 0x00#8 ++ 0x0000#16⟩ w = true ↔
      opcField w = opc.toNat := by
  rw [matches_iff, show 0xFF#8 = BitVec.allOnes 8 from rfl, BitVec.and_allOnes]
  simp only [BitVec.and_zero, and_true, ← BitVec.toNat_inj]
  rfl

/-- A row that fixes the opcode and a zero `N`. -/
theorem matches_opcode_count (name : String) (opc : BitVec 8) (w : CommandWord) :
    OpcodeRow.matches ⟨name, opc ++ 0x00#8 ++ 0x0000#16, 0xFF#8 ++ 0x00#8 ++ 0xFFFF#16⟩ w = true ↔
      opcField w = opc.toNat ∧ countField w = 0 := by
  rw [matches_iff, show 0xFF#8 = BitVec.allOnes 8 from rfl,
    show 0xFFFF#16 = BitVec.allOnes 16 from rfl, BitVec.and_allOnes, BitVec.and_allOnes]
  simp only [BitVec.and_zero, true_and, ← BitVec.toNat_inj]
  rfl

/-- A row that fixes the opcode and a zero `INST`. -/
theorem matches_opcode_inst (name : String) (opc : BitVec 8) (w : CommandWord) :
    OpcodeRow.matches ⟨name, opc ++ 0x00#8 ++ 0x0000#16, 0xFF#8 ++ 0xFF#8 ++ 0x0000#16⟩ w = true ↔
      opcField w = opc.toNat ∧ instField w = 0 := by
  rw [matches_iff, show 0xFF#8 = BitVec.allOnes 8 from rfl, BitVec.and_allOnes, BitVec.and_allOnes]
  simp only [BitVec.and_zero, and_true, ← BitVec.toNat_inj]
  rfl

/-- What each row of the opcode table takes, in the decoder's fields (R122). -/
theorem opcodeRows_match (w : CommandWord) (P : String → Prop → Prop) :
    (∀ row ∈ opcodeRows, P row.mnemonic (row.matches w = true)) ↔
      P "TX_SEND_DATA" (opcField w = 0x01) ∧ P "TX_WRITE" (opcField w = 0x02) ∧
      P "RX_POLL" (opcField w = 0x10 ∧ countField w = 0) ∧
      P "RX_POLL_BLOCKING" (opcField w = 0x11 ∧ countField w = 0) ∧
      P "RX_HAS_DATA" (opcField w = 0x12 ∧ countField w = 0) ∧
      P "RX_READ_INTO" (opcField w = 0x13) ∧
      P "RX_READ_SIZE" (opcField w = 0x14 ∧ countField w = 0) ∧
      P "CHK_CRC8" (opcField w = 0x20 ∧ instField w = 0) ∧
      P "CHK_XOR" (opcField w = 0x21 ∧ instField w = 0) := by
  have h1 : OpcodeRow.matches ⟨"TX_SEND_DATA", 0x01000000, 0xFF000000⟩ w = true ↔
      opcField w = 0x01 := matches_opcode _ 0x01 w
  have h2 : OpcodeRow.matches ⟨"TX_WRITE", 0x02000000, 0xFF000000⟩ w = true ↔
      opcField w = 0x02 := matches_opcode _ 0x02 w
  have h3 : OpcodeRow.matches ⟨"RX_POLL", 0x10000000, 0xFF00FFFF⟩ w = true ↔
      opcField w = 0x10 ∧ countField w = 0 := matches_opcode_count _ 0x10 w
  have h4 : OpcodeRow.matches ⟨"RX_POLL_BLOCKING", 0x11000000, 0xFF00FFFF⟩ w = true ↔
      opcField w = 0x11 ∧ countField w = 0 := matches_opcode_count _ 0x11 w
  have h5 : OpcodeRow.matches ⟨"RX_HAS_DATA", 0x12000000, 0xFF00FFFF⟩ w = true ↔
      opcField w = 0x12 ∧ countField w = 0 := matches_opcode_count _ 0x12 w
  have h6 : OpcodeRow.matches ⟨"RX_READ_INTO", 0x13000000, 0xFF000000⟩ w = true ↔
      opcField w = 0x13 := matches_opcode _ 0x13 w
  have h7 : OpcodeRow.matches ⟨"RX_READ_SIZE", 0x14000000, 0xFF00FFFF⟩ w = true ↔
      opcField w = 0x14 ∧ countField w = 0 := matches_opcode_count _ 0x14 w
  have h8 : OpcodeRow.matches ⟨"CHK_CRC8", 0x20000000, 0xFFFF0000⟩ w = true ↔
      opcField w = 0x20 ∧ instField w = 0 := matches_opcode_inst _ 0x20 w
  have h9 : OpcodeRow.matches ⟨"CHK_XOR", 0x21000000, 0xFFFF0000⟩ w = true ↔
      opcField w = 0x21 ∧ instField w = 0 := matches_opcode_inst _ 0x21 w
  simp only [opcodeRows, List.forall_mem_cons, List.not_mem_nil, false_imp_iff, implies_true,
    and_true, h1, h2, h3, h4, h5, h6, h7, h8, h9]

/-- Settles O4: each row's mask and pattern fix the opcode, and the operand the decoder wants 0. -/
theorem decoderFollowsOpcodeTable : Obligations.DecoderFollowsOpcodeTable := by
  intro w
  constructor
  · rw [opcodeRows_match w fun mnemonic taken =>
      taken → ∃ i, decode w = .command i ∧ i.mnemonic = mnemonic]
    refine ⟨fun h => ⟨_, decode_txSendData h, rfl⟩, fun h => ⟨_, decode_txWrite h, rfl⟩,
      fun ⟨h, hz⟩ => ⟨_, (decode_rxPoll h).trans (withoutCount_of_eq hz _), rfl⟩,
      fun ⟨h, hz⟩ => ⟨_, (decode_rxPollBlocking h).trans (withoutCount_of_eq hz _), rfl⟩,
      fun ⟨h, hz⟩ => ⟨_, (decode_rxHasData h).trans (withoutCount_of_eq hz _), rfl⟩,
      fun h => ⟨_, decode_rxReadInto h, rfl⟩,
      fun ⟨h, hz⟩ => ⟨_, (decode_rxReadSize h).trans (withoutCount_of_eq hz _), rfl⟩,
      fun ⟨h, hz⟩ => ⟨_, (decode_chkCrc8 h).trans (withoutInst_of_eq hz _), rfl⟩,
      fun ⟨h, hz⟩ => ⟨_, (decode_chkXor h).trans (withoutInst_of_eq hz _), rfl⟩⟩
  · intro hrows
    have hnone : ∀ row ∈ opcodeRows, ¬ row.matches w = true := by simpa using hrows
    rw [opcodeRows_match w fun _ taken => ¬ taken] at hnone
    obtain ⟨h1, h2, h10, h11, h12, h13, h14, h20, h21⟩ := hnone
    rcases opcode_cases (opcField w) with h | h | h | h | h | h | h | h | h | h
    · exact absurd h h1
    · exact absurd h h2
    · exact ⟨_, (decode_rxPoll h).trans (withoutCount_of_ne (fun hz => h10 ⟨h, hz⟩) _)⟩
    · exact ⟨_, (decode_rxPollBlocking h).trans (withoutCount_of_ne (fun hz => h11 ⟨h, hz⟩) _)⟩
    · exact ⟨_, (decode_rxHasData h).trans (withoutCount_of_ne (fun hz => h12 ⟨h, hz⟩) _)⟩
    · exact absurd h h13
    · exact ⟨_, (decode_rxReadSize h).trans (withoutCount_of_ne (fun hz => h14 ⟨h, hz⟩) _)⟩
    · exact ⟨_, (decode_chkCrc8 h).trans (withoutInst_of_ne (fun hz => h20 ⟨h, hz⟩) _)⟩
    · exact ⟨_, (decode_chkXor h).trans (withoutInst_of_ne (fun hz => h21 ⟨h, hz⟩) _)⟩
    · exact ⟨_, decode_unknown h⟩

/-- Settles O1: seventeen closed words, each put through the decoder. -/
theorem specWordsDecodeAsWritten : Obligations.SpecWordsDecodeAsWritten := by
  unfold Obligations.SpecWordsDecodeAsWritten
  decide

end Sys2Proof
end

section
/-! SUPPORT. The derived constants, the windows and the elapsed time as arithmetic
(spec/00_scope.md R11 to R15; spec/41_receive.md R191). -/

namespace Sys2Proof.Machine

/-- R11: rounding half up is the integer within half a unit of the quotient, ties upwards. -/
theorem roundHalfUp_bounds (num : Nat) {den : Nat} (hden : 0 < den) :
    2 * den * roundHalfUp num den ≤ 2 * num + den ∧
      2 * num + den < 2 * den * (roundHalfUp num den + 1) :=
  ⟨Nat.mul_div_le _ _, Nat.lt_mul_div_succ _ (by omega)⟩

/-- Settles O12: the general bounds at each numerator, and three closed quotients. -/
theorem derivedConstantsRoundHalfUp : Obligations.DerivedConstantsRoundHalfUp :=
  ⟨fun _ hb => ⟨roundHalfUp_bounds _ hb, roundHalfUp_bounds _ hb, roundHalfUp_bounds _ hb⟩,
    by decide, by decide, by decide⟩

/-- R12 as two linear inequalities. -/
theorem inWin_iff (e x : Nat) : inWin e x = true ↔ 3 * x ≤ 4 * e ∧ 4 * e ≤ 5 * x := by
  simp [inWin]

theorem inWin_eq_false_iff (e x : Nat) : inWin e x = false ↔ 4 * e < 3 * x ∨ 5 * x < 4 * e := by
  rw [← Bool.not_eq_true, inWin_iff]
  omega

/-- Settles O14: the two inequalities, scaled to percent. -/
theorem windowIsThreeToFiveQuarters : Obligations.WindowIsThreeToFiveQuarters := by
  intro e x
  rw [inWin_eq_false_iff]
  omega

/-- How the rounded constants of a bit rate lie to each other: rounding leaves two halves within 1
of a bit period, and a start marker within 1 of two bit periods; at 6000 bit/s a bit period is
still 167 µs (R11). -/
theorem timing_relations {b : Nat} (hlow : 1 ≤ b) (hhigh : b ≤ 6000) :
    frameUs b ≤ 2 * halfUs b + 1 ∧ 2 * halfUs b ≤ frameUs b + 1 ∧
      2 * frameUs b ≤ startUs b + 1 ∧ startUs b ≤ 2 * frameUs b + 1 ∧ 167 ≤ frameUs b := by
  obtain ⟨hf, hf'⟩ : 2 * b * frameUs b ≤ _ ∧ _ := roundHalfUp_bounds 1000000 hlow
  obtain ⟨hh, hh'⟩ : 2 * b * halfUs b ≤ _ ∧ _ := roundHalfUp_bounds 500000 hlow
  obtain ⟨hs, hs'⟩ : 2 * b * startUs b ≤ _ ∧ _ := roundHalfUp_bounds 2000000 hlow
  change _ < 2 * b * (frameUs b + 1) at hf'
  change _ < 2 * b * (halfUs b + 1) at hh'
  change _ < 2 * b * (startUs b + 1) at hs'
  refine ⟨?_, ?_, ?_, ?_, ?_⟩ <;> by_contra hlt <;> nlinarith

/-- Settles O13: every claim is linear in the constants and follows from how they lie to each
other. -/
theorem windowsSeparateLineCodeEdges : Obligations.WindowsSeparateLineCodeEdges := by
  intro b hlow hhigh
  have hrel := timing_relations hlow hhigh
  simp only [inWin_iff, inWin_eq_false_iff]
  omega

/-- Settles O15: both sides are the residue of the same integer. -/
theorem elapsedIsModularDifference : Obligations.ElapsedIsModularDifference := by
  intro W t r
  have hle : r % 2 ^ W ≤ 2 ^ W := (Nat.mod_lt _ (Nat.two_pow_pos W)).le
  unfold elapsed
  push_cast [Nat.cast_sub hle]
  rw [show (t : Int) + (2 ^ W - r % 2 ^ W) = t - r % 2 ^ W + 2 ^ W by ring, Int.add_emod_right]
  simp

/-- Host time that passes after an instant is added to the elapsed time, modulo the clock's range.
-/
theorem elapsed_clockValue_add (W time gap ref : Nat) :
    elapsed W (clockValue W (time + gap)) ref =
      (elapsed W (clockValue W time) ref + gap) % 2 ^ W := by
  simp only [elapsed, clockValue, Nat.mod_add_mod]
  congr 1
  omega

/-- The time since an instant is the host time that passed, when the clock's range holds it. -/
theorem elapsed_clockValue_of_lt {W gap : Nat} (time : Nat) (h : gap < 2 ^ W) :
    elapsed W (clockValue W (time + gap)) (clockValue W time) = gap := by
  have hzero : elapsed W (clockValue W time) (clockValue W time) = 0 := by
    have hint := elapsedIsModularDifference W (clockValue W time) (clockValue W time)
    simpa using hint
  rw [elapsed_clockValue_add, hzero, Nat.zero_add, Nat.mod_eq_of_lt h]

end Sys2Proof.Machine
end

section
/-! SUPPORT. CRC8 and XOR tell differing bytes apart (spec/42_checksum.md R260 to R266). -/

namespace Sys2Proof.Machine

/-- One shift loses nothing: the polynomial's top bit records the bit that is shifted out. -/
theorem crcShift_eq_zero {c : Byte} (h : crcShift c = 0) : c = 0 := by
  unfold crcShift at h
  split at h
  · have htop := congrArg (·.getLsbD 7) h
    simp at htop
  · rename_i hlow
    apply BitVec.eq_of_getLsbD_eq
    intro i _
    cases i with
    | zero => simpa using hlow
    | succ i => simpa [Nat.add_comm] using congrArg (·.getLsbD i) h

theorem crcShifts_eq_zero {n : Nat} {c : Byte} (h : crcShifts n c = 0) : c = 0 := by
  induction n generalizing c with
  | zero => exact h
  | succ n ih => exact crcShift_eq_zero (ih h)

/-- Shifts are linear, so what they send to 0 decides which inputs they tell apart: all. -/
theorem crcShifts_injective (n : Nat) : Function.Injective (crcShifts n) := by
  intro a b hab
  have hdiff : crcShifts n (a ^^^ b) = 0 := by rw [crcShifts_xor, hab]; exact BitVec.xor_self
  exact BitVec.xor_eq_zero_iff.mp (crcShifts_eq_zero hdiff)

@[simp] theorem crcByte_eq_zero_iff {c b : Byte} : crcByte c b = 0#8 ↔ c = b := by
  constructor
  · intro h
    exact BitVec.xor_eq_zero_iff.mp (crcShifts_eq_zero h)
  · rintro rfl
    exact crcByte_self c

theorem crcByte_right_inj {c b b' : Byte} : crcByte c b = crcByte c b' ↔ b = b' := by
  simp [crcByte, (crcShifts_injective 8).eq_iff]

theorem crcByte_left_inj {c c' b : Byte} : crcByte c b = crcByte c' b ↔ c = c' := by
  simp [crcByte, (crcShifts_injective 8).eq_iff]

/-- The bytes behind a difference keep it. -/
theorem crcFold_injective (s : List Byte) : Function.Injective (s.foldl crcByte) := by
  induction s with
  | nil => exact fun _ _ h => h
  | cons b rest ih => exact fun _ _ h => crcByte_left_inj.mp (ih h)

/-- Settles O17: the last byte meets the register, which CRC8's shifts and XOR send to 0 exactly
when they are equal. -/
theorem frameCheckComparesLastByte : Obligations.FrameCheckComparesLastByte := by
  intro mode payload last hmode
  cases mode with
  | noCheck => exact absurd rfl hmode
  | crc8 => simp [crc8_snoc]
  | xor => simp [xor8_snoc]

/-- Settles O18: the flipped bit changes the register at its byte, and the bytes behind keep the
difference. -/
theorem crcDetectsEverySingleBitError : Obligations.CrcDetectsEverySingleBitError := by
  intro before after b j hj heq
  rw [crc8_append, crc8_append, List.foldl_cons, List.foldl_cons] at heq
  have hflip : b ^^^ (1#8 <<< j) = b := crcByte_right_inj.mp (crcFold_injective after heq)
  have hbit := congrArg (·.getLsbD j) hflip
  simp [hj] at hbit

/-- The model's shift is R260's. -/
theorem crcShift_eq (c : Byte) :
    crcShift c = if c &&& 1 = 1 then (c >>> 1) ^^^ 0x8C else c >>> 1 := by
  have hlow : c.getLsbD 0 = true ↔ c &&& 1 = 1 := by
    rw [← BitVec.toNat_inj, BitVec.toNat_and, show (1 : Byte).toNat = 1 from rfl,
      Nat.and_one_is_mod, BitVec.getLsbD, Nat.testBit_zero, decide_eq_true_eq]
  simp only [crcShift, hlow]

theorem crcShifts_eq_iterate (n : Nat) (c : Byte) :
    crcShifts n c =
      (fun c : Byte => if c &&& 1 = 1 then (c >>> 1) ^^^ 0x8C else c >>> 1)^[n] c := by
  induction n generalizing c with
  | zero => rfl
  | succ n ih => rw [Function.iterate_succ_apply, ← crcShift_eq, ← ih]; rfl

/-- Settles O20: both commands return at once, and the checksums' last byte follows the
recurrences. -/
theorem checksumCommandsAnswer : Obligations.ChecksumCommandsAnswer := by
  intro s n
  refine ⟨⟨_, rfl, ⟨rfl, rfl⟩, ⟨rfl, rfl, rfl⟩, rfl⟩, ⟨_, rfl, ⟨rfl, rfl⟩, ⟨rfl, rfl, rfl⟩, rfl⟩,
    ⟨crc8_nil, fun bytes b => ?_⟩, xor8_nil, xor8_snoc⟩
  rw [crc8_snoc, crcByte, crcShifts_eq_iterate]

end Sys2Proof.Machine
end

section
/-! SUPPORT. Buffers as the functions they stand for (spec/20_memory.md R80, R84). -/

namespace Sys2Proof.Machine

/-- Settles O58: at the index written and at every other one. -/
theorem bufferReadsWhatWasWritten : Obligations.BufferReadsWhatWasWritten := by
  intro m i j v hwf
  refine ⟨Memory.write_wf hwf i v, ?_⟩
  split
  · subst j; exact Memory.read_write_self m hwf i v
  · exact Memory.read_write_ne m ‹_› v

/-- The cells of a canonical buffer are its nonzero readings. -/
theorem Memory.mem_iff_read {m : Memory} (hwf : Memory.wf m) (cell : Host.Cell) :
    cell ∈ m ↔ Memory.read m cell.1 = cell.2 ∧ cell.2 ≠ Memory.unlisted := by
  constructor
  · intro hmem
    exact ⟨by rw [Memory.read, Table.find_of_mem hwf.1 hmem, Option.getD_some], hwf.2 cell hmem⟩
  · rintro ⟨hread, hlisted⟩
    cases hfind : Table.find cell.1 m with
    | none => exact absurd (by rw [← hread, Memory.read, hfind, Option.getD_none]) hlisted
    | some v =>
      obtain rfl : v = cell.2 := by rw [← hread, Memory.read, hfind, Option.getD_some]
      exact Table.mem_of_find hfind

/-- Settles O59: equal readings give the same cells, and sorted lists of the same cells are equal.
-/
theorem equalReadsAreEqualBuffers : Obligations.EqualReadsAreEqualBuffers := by
  intro m n hm hn hread
  have : Std.Irrefl fun a b : Host.Cell => a.1 < b.1 := ⟨fun cell => Nat.lt_irrefl cell.1⟩
  have : Std.Antisymm fun a b : Host.Cell => a.1 < b.1 :=
    ⟨fun _ _ hab hba => absurd hba (Nat.lt_asymm hab)⟩
  refine hm.1.eq_of_mem_iff hn.1 fun cell => ?_
  rw [Memory.mem_iff_read hm, Memory.mem_iff_read hn, hread]

end Sys2Proof.Machine
end

section
/-! SUPPORT. What a machine step makes of the host's next action: a word is decoded and run or
refused, no action leaves the machine as it is (spec/30_encoding.md R121 to R123;
spec/60_exceptions.md R292, R304). -/

namespace Sys2Proof.Machine

/-! ### The step -/

theorem step_idle {s : State} (h : s.host = []) : step s = .next s := by
  simp [step, State.nextAction, h]

theorem step_construct {s : State} {k : Nat} {config : UnitConfig} {draw : ResetDraw}
    {rest : List HostAction} (h : s.host = .construct k config draw :: rest) :
    step s = execConstruct k config draw s := by
  simp [step, State.nextAction, h]

theorem step_command {s : State} {w : CommandWord} {data : List Byte} {rest : List HostAction}
    {i : Instr} (h : s.host = .command w data :: rest) (hdec : decode w = .command i) :
    step s = exec i s := by
  simp [step, State.nextAction, h, hdec]

theorem step_rejected {s : State} {w : CommandWord} {data : List Byte} {rest : List HostAction}
    {e : DecodeError} (h : s.host = .command w data :: rest) (hdec : decode w = .rejected e) :
    step s = .next (s.refuseCommand w) := by
  simp [step, State.nextAction, h, hdec]

/-- All that a machine step can be. -/
theorem step_cases (s : State) :
    step s = .next s ∨
      (∃ k config draw, step s = execConstruct k config draw s) ∨
      (∃ i, step s = exec i s) ∨
      ∃ w, step s = .next (s.refuseCommand w) := by
  cases hhost : s.host with
  | nil => exact .inl (step_idle hhost)
  | cons action rest =>
    cases action with
    | construct k config draw => exact .inr (.inl ⟨k, config, draw, step_construct hhost⟩)
    | command w data =>
      cases hdec : decode w with
      | command i => exact .inr (.inr (.inl ⟨i, step_command hhost hdec⟩))
      | rejected e => exact .inr (.inr (.inr ⟨w, step_rejected hhost hdec⟩))

/-- Settles O5: the step's command row. -/
theorem stepRunsTheDecodedCommand : Obligations.StepRunsTheDecodedCommand :=
  fun _ _ _ _ _ hhost hdec => step_command hhost hdec

/-- Settles O8: the step's idle row. -/
theorem idleBlockDoesNothing : Obligations.IdleBlockDoesNothing :=
  fun _ hhost => step_idle hhost

/-! ### Refusals -/

section
variable {s t : State} (h : NothingTouched s t)
include h

theorem NothingTouched.units_eq : t.units = s.units := h.2.1

theorem NothingTouched.ports_eq : t.ports = s.ports := h.2.2

theorem NothingTouched.unit_eq (k : Nat) : t.unit k = s.unit k := by
  rw [State.unit, h.units_eq]; rfl

end

theorem nothingTouched_refuseCommand (s : State) (w : CommandWord) :
    NothingTouched s (s.refuseCommand w) :=
  ⟨rfl, rfl, rfl⟩

theorem refusedWord_refuseCommand (s : State) (w : CommandWord) :
    RefusedWord s (s.refuseCommand w) w :=
  ⟨⟨rfl, rfl⟩, nothingTouched_refuseCommand s w, rfl⟩

/-- Settles O6: the step's row for a rejected word. -/
theorem undecodableWordIsRefused : Obligations.UndecodableWordIsRefused :=
  fun s w _ _ _ hhost hdec => ⟨_, step_rejected hhost hdec, refusedWord_refuseCommand s w⟩

theorem findTx_eq_none {s : State} {k : Nat} (h : ∀ c x, s.unit k ≠ some (.tx c x)) :
    s.findTx k = none :=
  Option.eq_none_iff_forall_ne_some.mpr fun ⟨c, x⟩ hfind => h c x (State.findTx_eq.mp hfind)

theorem findRx_eq_none {s : State} {k : Nat} (h : ∀ c r, s.unit k ≠ some (.rx c r)) :
    s.findRx k = none :=
  Option.eq_none_iff_forall_ne_some.mpr fun ⟨c, r⟩ hfind => h c r (State.findRx_eq.mp hfind)

/-- The transmitter commands (R122). -/
theorem txOperand_cases {i : Instr} {k : Nat} (hop : txOperand i = some k) :
    (∃ n, i = .txSendData k n) ∨ ∃ n, i = .txWrite k n := by
  cases i <;> simp_all [txOperand]

/-- The receiver commands (R122). -/
theorem rxOperand_cases {i : Instr} {k : Nat} (hop : rxOperand i = some k) :
    i = .rxPoll k ∨ i = .rxPollBlocking k ∨ i = .rxHasData k ∨ (∃ n, i = .rxReadInto k n) ∨
      i = .rxReadSize k := by
  cases i <;> simp_all [rxOperand]

/-- Every command names a transmitter or a receiver, or is one of the two checksum commands
(R122). -/
theorem operand_cases (i : Instr) :
    (∃ k, txOperand i = some k) ∨ (∃ k, rxOperand i = some k) ∨ (∃ n, i = .chkCrc8 n) ∨
      ∃ n, i = .chkXor n := by
  cases i <;> simp [txOperand, rxOperand]

/-- R123: a transmitter command that names no transmitter. -/
theorem exec_noTx {s : State} {i : Instr} {k : Nat} (hop : txOperand i = some k)
    (h : s.findTx k = none) : exec i s = .next (s.refuseCommand (encode i)) := by
  rcases txOperand_cases hop with ⟨n, rfl⟩ | ⟨n, rfl⟩
  · simp [exec, execTxSendData, h]
  · simp [exec, execTxWrite, h]

/-- R123: a receiver command that names no receiver. -/
theorem exec_noRx {s : State} {i : Instr} {k : Nat} (hop : rxOperand i = some k)
    (h : s.findRx k = none) : exec i s = .next (s.refuseCommand (encode i)) := by
  rcases rxOperand_cases hop with rfl | rfl | rfl | ⟨n, rfl⟩ | rfl
  · simp [exec, execRxPoll, h]
  · simp [exec, execRxPollBlocking, h]
  · simp [exec, execRxHasData, h]
  · simp [exec, execRxReadInto, h]
  · simp [exec, execRxReadSize, h]

/-- Settles O7: such a command finds no unit of its kind. -/
theorem wrongUnitIsRefused : Obligations.WrongUnitIsRefused := fun s _ _ =>
  ⟨fun hop hunit => ⟨_, exec_noTx hop (findTx_eq_none hunit), refusedWord_refuseCommand s _⟩,
    fun hop hunit => ⟨_, exec_noRx hop (findRx_eq_none hunit), refusedWord_refuseCommand s _⟩⟩

/-! ### The data phase -/

/-- R121: the bytes of a data phase that the host drives. -/
theorem dataPhase_eq_take {s : State} {w : CommandWord} {data : List Byte} {rest : List HostAction}
    {n : Nat} (h : s.host = .command w data :: rest) (hn : n ≤ data.length) :
    s.dataPhase n = data.take n := by
  apply List.ext_getElem
  · simp [hn]
  · intro i hi _
    have hi : i < n := by simpa using hi
    have hdata : i < data.length := by omega
    simp [State.dataPhase, State.dataPort, State.nextAction, h, hdata]

/-- Settles O19: the length, and the bytes driven. -/
theorem dataPhaseIsTheHostsBytes : Obligations.DataPhaseIsTheHostsBytes :=
  fun s _ _ _ n hhost => ⟨s.dataPhase_length n, dataPhase_eq_take hhost⟩

/-- Settles O47: there is no unit to be unsound. -/
theorem resetIsSound : Obligations.ResetIsSound := by
  constructor <;> simp [State.reset]

end Sys2Proof.Machine
end

section
/-! SUPPORT. Construction: when it is refused and what it leaves (spec/00_scope.md R14;
spec/70_reset_and_hazards.md R330 to R332). -/

namespace Sys2Proof.Machine

/-- R14 for a receiver, bound by bound. -/
theorem RxConfig.legal_iff {W : Nat} {c : RxConfig} :
    c.legal W = true ↔ 1 ≤ c.bitRate ∧ c.bitRate ≤ 6000 ∧ 4 * startUs c.bitRate < 2 ^ W ∧
      1 ≤ c.cap ∧ c.cap ≤ 65535 := by
  simp [RxConfig.legal, clockLegal, capLegal, and_assoc]

/-- R14 for a transmitter, bound by bound. -/
theorem TxConfig.legal_iff {W : Nat} {c : TxConfig} :
    c.legal W = true ↔ 1 ≤ c.bitRate ∧ c.bitRate ≤ 6000 ∧ 4 * startUs c.bitRate < 2 ^ W ∧
      1 ≤ c.cap ∧ c.cap ≤ 65535 ∧ 10 ≤ c.longCount.toNat := by
  simp only [TxConfig.legal, clockLegal, capLegal, Bool.and_eq_true, decide_eq_true_eq, and_assoc]
  rfl

/-- R14, R302: a pin is free for a number when every other number has another pin. -/
theorem State.pinFree_iff {s : State} {k pin : Nat} :
    s.pinFree k pin = true ↔ ∀ entry ∈ s.units, entry.1 ≠ k → entry.2.pin ≠ pin := by
  simp only [State.pinFree, List.all_eq_true, Bool.or_eq_true, decide_eq_true_eq,
    or_iff_not_imp_left, ne_eq]

/-- What a construction asks of its action: an 8-bit number, a legal configuration, a free pin. -/
def Constructible (s : State) (k : Nat) (config : UnitConfig) : Prop :=
  k < 256 ∧ config.legal s.clockWidth = true ∧ s.pinFree k config.pin = true

section
variable {s t : State} {k : Nat} {config : UnitConfig} {draw : ResetDraw}

theorem execConstruct_of_constructible (h : Constructible s k config) :
    execConstruct k config draw s = .next (s.placeUnit k config draw).dropAction := by
  obtain ⟨hk, hlegal, hfree⟩ := h
  simp [execConstruct, hk, hlegal, hfree]

theorem execConstruct_of_not_constructible (h : ¬ Constructible s k config) :
    execConstruct k config draw s = .refused (.illegalConfiguration k) := by
  have hcond :
      (decide (k < 256) && config.legal s.clockWidth && s.pinFree k config.pin) = false := by
    simpa [Constructible, ← and_assoc, Bool.and_eq_true, Bool.not_eq_true] using h
  simp [execConstruct, hcond]

theorem execConstruct_eq_next (h : execConstruct k config draw s = .next t) :
    Constructible s k config ∧ t = (s.placeUnit k config draw).dropAction := by
  by_cases hc : Constructible s k config
  · rw [execConstruct_of_constructible hc] at h
    exact ⟨hc, (Host.Outcome.next.inj h).symm⟩
  · simp [execConstruct_of_not_constructible hc] at h

end

section
variable (s : State) (k : Nat) (config : UnitConfig) (draw : ResetDraw)

@[simp] theorem State.placeUnit_clockWidth :
    (s.placeUnit k config draw).clockWidth = s.clockWidth := rfl
@[simp] theorem State.placeUnit_units : (s.placeUnit k config draw).units =
    Table.insert k (CodecUnit.constructed s.clockWidth draw config) s.units := rfl
@[simp] theorem State.placeUnit_host : (s.placeUnit k config draw).host = s.host := rfl
@[simp] theorem State.placeUnit_responses :
    (s.placeUnit k config draw).responses = s.responses := rfl
@[simp] theorem State.placeUnit_events : (s.placeUnit k config draw).events = s.events := rfl
@[simp] theorem State.placeUnit_ports : (s.placeUnit k config draw).ports =
    s.ports.call (.setPinMode config.pin config.direction) := rfl
@[simp] theorem State.placeUnit_unit_self : (s.placeUnit k config draw).unit k =
    some (CodecUnit.constructed s.clockWidth draw config) := by
  simp [State.unit]

theorem othersKept_placeUnit : OthersKept k s (s.placeUnit k config draw).dropAction :=
  ⟨rfl, fun _ hj => Table.find_insert_ne hj _ _⟩

end

/-- A pin is free when no unit of another number has it. -/
theorem State.pinFree_of_unit {s : State} {k pin : Nat} (hsorted : Table.sorted s.units)
    (h : ∀ j u, s.unit j = some u → j ≠ k → u.pin ≠ pin) : s.pinFree k pin = true :=
  State.pinFree_iff.mpr fun entry hmem hne =>
    h entry.1 entry.2 (Table.find_of_mem hsorted hmem) hne

/-- R60, R61: every byte of a constructed buffer is the draw's. -/
theorem Memory.read_drawn {cap i : Nat} (bytes : List Byte) (hi : i < cap) :
    Memory.read (Memory.drawn cap bytes) i = bytes.getD i 0 := by
  rw [Memory.drawn, Memory.read_writeBytes Memory.wf_nil]
  by_cases hlen : i < bytes.length
  · simp [hi, hlen]
  · simp [hlen]

/-- Settles O9: the construction places `Tx.constructed`. -/
theorem constructedTransmitterHoldsResetValues :
    Obligations.ConstructedTransmitterHoldsResetValues := by
  intro s k c draw rest hhost hk hlegal hpins hsorted
  have hc : Constructible s k (.tx c) := ⟨hk, hlegal, State.pinFree_of_unit hsorted hpins⟩
  refine ⟨_, Tx.constructed s.clockWidth c draw,
    (step_construct hhost).trans (execConstruct_of_constructible hc), ?_, rfl, rfl,
    fun i hi => Memory.read_drawn _ hi, othersKept_placeUnit .., ?_, rfl, rfl, rfl⟩
  · rw [State.dropAction_unit, State.placeUnit_unit_self]; rfl
  · rw [State.dropAction_host, State.placeUnit_host, hhost, List.tail_cons]

/-- Settles O10: the construction places `Rx.constructed`. -/
theorem constructedReceiverHoldsResetValues :
    Obligations.ConstructedReceiverHoldsResetValues := by
  intro s k c draw rest hhost hk hlegal hpins hsorted
  have hc : Constructible s k (.rx c) := ⟨hk, hlegal, State.pinFree_of_unit hsorted hpins⟩
  refine ⟨_, Rx.constructed s.clockWidth c draw,
    (step_construct hhost).trans (execConstruct_of_constructible hc), ?_, rfl, rfl, rfl, rfl, rfl,
    rfl, rfl, fun i hi => Memory.read_drawn _ hi, othersKept_placeUnit .., ?_, rfl, rfl, rfl⟩
  · rw [State.dropAction_unit, State.placeUnit_unit_self]; rfl
  · rw [State.dropAction_host, State.placeUnit_host, hhost, List.tail_cons]

/-- A pin that another number's unit has is not free. -/
theorem not_pinFree_of_taken {s : State} {k pin : Nat}
    (h : ∃ e ∈ s.units, e.1 ≠ k ∧ e.2.pin = pin) : ¬ s.pinFree k pin = true := by
  obtain ⟨e, hmem, hne, hpin⟩ := h
  exact fun hfree => State.pinFree_iff.mp hfree e hmem hne hpin

/-- Settles O11: each of R14's reasons contradicts a bound of a legal configuration, or the pin's
being free. -/
theorem illegalConfigurationIsRefused : Obligations.IllegalConfigurationIsRefused := by
  intro s k draw rest
  constructor
  · intro c hhost hreason
    rw [step_construct hhost]
    refine execConstruct_of_not_constructible fun ⟨_, hlegal, hfree⟩ => ?_
    have hbounds := TxConfig.legal_iff.mp hlegal
    have huntaken : ¬ ∃ e ∈ s.units, e.1 ≠ k ∧ e.2.pin = c.pin :=
      fun htaken => not_pinFree_of_taken htaken hfree
    simp only [huntaken, or_false] at hreason
    omega
  · intro c hhost hreason
    rw [step_construct hhost]
    refine execConstruct_of_not_constructible fun ⟨_, hlegal, hfree⟩ => ?_
    have hbounds := RxConfig.legal_iff.mp hlegal
    have huntaken : ¬ ∃ e ∈ s.units, e.1 ≠ k ∧ e.2.pin = c.pin :=
      fun htaken => not_pinFree_of_taken htaken hfree
    simp only [huntaken, or_false] at hreason
    omega

end Sys2Proof.Machine
end

section
/-! SUPPORT. The length of a transmission in time and in port calls, and TX_SEND_DATA
(spec/40_transmit.md R150 to R157; spec/70_reset_and_hazards.md R341). -/

namespace Sys2Proof.Machine

/-! ### Nominal durations -/

@[simp] theorem nominalUs_nil : nominalUs [] = 0 := rfl

@[simp] theorem nominalUs_cons (seg : Segment) (segs : List Segment) :
    nominalUs (seg :: segs) = seg.us + nominalUs segs := by
  simp [nominalUs]

@[simp] theorem nominalUs_append (a b : List Segment) :
    nominalUs (a ++ b) = nominalUs a + nominalUs b := by
  simp [nominalUs]

/-- R111: each preamble pulse lasts two bit periods. -/
theorem nominalUs_preamble (b pulses : Nat) :
    nominalUs (List.replicate pulses (preamblePulse b)).flatten = 2 * pulses * frameUs b := by
  induction pulses with
  | zero => simp
  | succ n ih =>
    rw [List.replicate_succ, List.flatten_cons, nominalUs_append, ih]
    simp only [preamblePulse, nominalUs_cons, nominalUs_nil]
    ring

/-- R113: each bit cell lasts two halves. -/
theorem nominalUs_bitCells (b : Nat) (bits : List Bool) :
    nominalUs (bits.flatMap (bitCell b)) = 2 * bits.length * halfUs b := by
  induction bits with
  | nil => simp
  | cons bit rest ih =>
    rw [List.flatMap_cons, nominalUs_append, ih]
    simp only [bitCell, nominalUs_cons, nominalUs_nil, List.length_cons]
    ring

/-- Settles O22: the sum over the three parts of the transmission. -/
theorem nominalTransmitDuration : Obligations.NominalTransmitDuration := by
  intro b pulses frame
  rw [txSegments, nominalUs_append, nominalUs_append, nominalUs_preamble, nominalUs_bitCells,
    frameBits_length]
  simp only [startMarker, nominalUs_cons, nominalUs_nil]
  ring

/-! ### Port calls -/

/-- Each segment makes one writePin call and one busyWait call, so a count that only looks at which
call it is counts the segments. -/
theorem countP_segmentTrace {counted : PortCall → Bool} {write wait : Bool}
    (hwrite : ∀ pin level, counted (.writePin pin level) = write)
    (hwait : ∀ nominal actual, counted (.busyWait nominal actual) = wait)
    (pin : Nat) (segs : List Segment) {actual : List Nat} (hlen : actual.length = segs.length) :
    (segmentTrace pin segs actual).countP counted = segs.length * (write.toNat + wait.toNat) := by
  induction segs generalizing actual with
  | nil => simp [segmentTrace]
  | cons seg rest ih =>
    cases actual with
    | nil => simp at hlen
    | cons d ds =>
      simp only [segmentTrace, List.countP_cons, hwrite, hwait, ih (Nat.succ.inj hlen),
        List.length_cons]
      simp only [Bool.toNat, Bool.cond_eq_ite]
      ring

/-- The same count over all the calls of a transmission: the clock sample, the segments, the end
level. -/
theorem countP_transmission {counted : PortCall → Bool} {write wait : Bool}
    (hnow : ∀ t, counted (.now t) = false)
    (hwrite : ∀ pin level, counted (.writePin pin level) = write)
    (hwait : ∀ nominal actual, counted (.busyWait nominal actual) = wait)
    (t0 pin : Nat) (segs : List Segment) {actual : List Nat} (hlen : actual.length = segs.length) :
    (([PortCall.now t0] ++ segmentTrace pin segs actual) ++ [PortCall.writePin pin false]).countP
        counted =
      segs.length * (write.toNat + wait.toNat) + write.toNat := by
  rw [List.countP_append, List.countP_append, countP_segmentTrace hwrite hwait pin segs hlen,
    List.countP_singleton, List.countP_singleton, hnow, hwrite]
  simp only [Bool.toNat, Bool.cond_eq_ite]
  simp

/-- Settles O24: the calls appended are the transmission's. -/
theorem txWriteTraceCounts : Obligations.TxWriteTraceCounts := by
  intro s t k n c x hunit hexec
  obtain rfl : afterTransmit k c x (s.dataPhase n) .write s = t :=
    Host.Outcome.next.inj ((execTxWrite_eq hunit n).symm.trans hexec)
  intro pulses
  have htrace := transmit_trace s.clockWidth c x (s.dataPhase n) s.ports
  rw [List.append_assoc, List.append_assoc, ← List.append_assoc [_]] at htrace
  have hlen := txSegments_length c.bitRate pulses (s.dataPhase n)
  rw [State.dataPhase_length] at hlen
  refine ⟨_, (congrArg Ports.trace (afterTransmit_ports ..)).trans htrace, ?_, ?_⟩
  · refine (countP_transmission (write := true) (wait := false) ?_ ?_ ?_ _ _ _
      (waits_length ..)).trans (by rw [hlen]; simp) <;> intros <;> rfl
  · refine (countP_transmission (write := false) (wait := true) ?_ ?_ ?_ _ _ _
      (waits_length ..)).trans (by rw [hlen]; simp) <;> intros <;> rfl

/-! ### TX_SEND_DATA -/

/-- The checksum byte, where there is one, is `CS` bytes. -/
theorem checksum_toList_length (mode : ChkMode) (bytes : List Byte) :
    (checksum mode bytes).toList.length = checksumSize mode := by
  cases mode <;> rfl

/-- `MemWrite` of two sequences, one behind the other. -/
theorem Memory.writeBytes_append (m : Memory) (i : Nat) (a b : List Byte) :
    Memory.writeBytes m i (a ++ b) =
      Memory.writeBytes (Memory.writeBytes m i a) (i + a.length) b := by
  induction a generalizing m i with
  | nil => rfl
  | cons v rest ih =>
    simp only [List.cons_append, Memory.writeBytes, ih, List.length_cons]
    congr 1
    omega

/-- R156: building the frame writes the payload and its checksum byte from index 0. -/
theorem buildFrame_eq (c : TxConfig) (payload : List Byte) {buf : Memory} (hwf : Memory.wf buf) :
    buildFrame c payload buf =
      Memory.writeBytes buf 0 (payload ++ (checksum c.chkMode payload).toList) := by
  rw [Memory.writeBytes_append]
  simp only [buildFrame, Memory.readBytes_writeBytes hwf]
  cases checksum c.chkMode payload <;> simp [Memory.writeBytes]

/-- TX_SEND_DATA on a transmitter whose buffer holds the frame sends it. -/
theorem execTxSendData_fits {s : State} {k n : Nat} {c : TxConfig} {x : Tx}
    (hunit : s.unit k = some (.tx c x)) (hfits : n + checksumSize c.chkMode ≤ c.cap) :
    execTxSendData k n s = .next
      (afterTransmit k c { x with txBuf := buildFrame c (s.dataPhase n) x.txBuf }
        (Memory.readBytes (buildFrame c (s.dataPhase n) x.txBuf) 0 (n + checksumSize c.chkMode))
        (.sendData true) s) := by
  simp [execTxSendData, State.findTx_eq.mpr hunit, Nat.not_lt.mpr hfits, afterTransmit]

/-- R157: TX_SEND_DATA of more than the buffer holds. -/
theorem execTxSendData_tooLarge {s : State} {k n : Nat} {c : TxConfig} {x : Tx}
    (hunit : s.unit k = some (.tx c x)) (hlarge : c.cap < n + checksumSize c.chkMode) :
    execTxSendData k n s =
      .next ((s.logEvent (some .sendTooLarge)).retire (.sendData false)) := by
  simp [execTxSendData, State.findTx_eq.mpr hunit, hlarge]

/-- Settles O25: the buffer is the frame written from index 0, and reads back as the frame. -/
theorem txSendDataBuildsAndTransmits : Obligations.TxSendDataBuildsAndTransmits := by
  intro s k n c x hunit hwf hfits frame
  have hbuf : buildFrame c (s.dataPhase n) x.txBuf = Memory.writeBytes x.txBuf 0 frame :=
    buildFrame_eq c _ hwf
  have hlen : n + checksumSize c.chkMode = frame.length := by
    simp [frame, checksum_toList_length]
  have hread : Memory.readBytes (Memory.writeBytes x.txBuf 0 frame) 0 frame.length = frame :=
    Memory.readBytes_writeBytes hwf 0 frame
  have hexec := execTxSendData_fits hunit hfits
  rw [hbuf, hlen, hread] at hexec
  rw [hlen]
  refine ⟨_, Memory.writeBytes x.txBuf 0 frame, hexec, transmitted_afterTransmit ..,
    Memory.writeBytes_wf hwf 0 frame, hread, fun i hi => ?_, answered_afterTransmit ..,
    othersKept_afterTransmit .., afterTransmit_events ..⟩
  rw [Memory.read_writeBytes hwf, if_neg (by omega)]

/-- Settles O26: the rejection ends the command and notes its event. -/
theorem oversizedSendIsRejected : Obligations.OversizedSendIsRejected :=
  fun _ _ _ _ _ hunit hlarge =>
    ⟨_, execTxSendData_tooLarge hunit hlarge, ⟨rfl, rfl⟩, ⟨rfl, rfl, rfl⟩, rfl⟩

end Sys2Proof.Machine
end

section
/-! SUPPORT. The receiver step row by row (spec/41_receive.md R190 to R217): an equation for each
row, and `RxRow`, which says once all that a step can do. -/

namespace Sys2Proof.Machine

section
variable {W t : Nat} {c : RxConfig} {r : Rx} {level : Level}

/-! ### The rows -/

/-- R192 as the statements write it: the step does not close. -/
theorem not_close_iff :
    ¬ (r.state = .framing ∧ isSilence (elapsed W t r.ref) c.bitRate = true) ↔
      ¬ (r.state = .framing ∧ startUs c.bitRate < elapsed W t r.ref) := by
  rw [isSilence_iff]

/-- R193, R195: a frame that is too short, or whose checksum is wrong, is not exposed. -/
theorem closeFrame_reject (h : ¬ (2 ≤ r.byteCnt.toNat ∧ chkOk c.chkMode r.frame = true)) :
    closeFrame c r = ⟨{ r with state := .idle }, 0,
      some (if r.byteCnt.toNat < 2 then .shortFrame else .checksumMismatch)⟩ := by
  by_cases hshort : r.byteCnt.toNat < 2
  · simp [closeFrame, hshort]
  · have hbad : ¬ chkOk c.chkMode r.frame = true := fun hgood => h ⟨by omega, hgood⟩
    simp [closeFrame, hshort, hbad]

theorem rxStep_accept (h : Accepts W c t r) :
    rxStep W c t level r =
      ⟨Rx.expose c.chkMode { r with state := .idle },
        (Rx.expose c.chkMode { r with state := .idle }).size, none⟩ := by
  obtain ⟨hframing, hsilence, hlen, hchk⟩ := h
  rw [rxStep_close hframing ((isSilence_iff _ _).mpr hsilence), closeFrame_accept hlen hchk]

theorem rxStep_reject (hframing : r.state = .framing)
    (hsilence : startUs c.bitRate < elapsed W t r.ref) (h : ¬ Accepts W c t r) :
    rxStep W c t level r = ⟨{ r with state := .idle }, 0,
      some (if r.byteCnt.toNat < 2 then .shortFrame else .checksumMismatch)⟩ := by
  rw [rxStep_close hframing ((isSilence_iff _ _).mpr hsilence),
    closeFrame_reject fun ⟨hlen, hchk⟩ => h ⟨hframing, hsilence, hlen, hchk⟩]

/-- An edge in a state other than FRAMING is processed. -/
theorem rxStep_edge_of_ne_framing (hstate : r.state ≠ .framing) (hedge : level ≠ r.prev) :
    rxStep W c t level r = processEdge c t level (elapsed W t r.ref) r :=
  rxStep_edge (fun h => hstate h.1) hedge

/-- An edge before the silence is processed. -/
theorem rxStep_edge_of_le (hopen : elapsed W t r.ref ≤ startUs c.bitRate) (hedge : level ≠ r.prev) :
    rxStep W c t level r = processEdge c t level (elapsed W t r.ref) r :=
  rxStep_edge (not_close_iff.mpr fun h => Nat.not_lt.mpr hopen h.2) hedge

/-- R199 with R204: outside the start window the candidate is dropped; a rising edge, which no sound
receiver sees in EDGE_CANDIDATE, is caught again. -/
theorem processEdge_noise_any (e : Nat) (hstate : r.state = .edgeCandidate)
    (hw : inWin e (startUs c.bitRate) = false) :
    processEdge c t level e r =
      ⟨{ r with state := if level then .edgeCandidate else .idle, ref := t, prev := level }, 0,
        some .timingNoiseStart⟩ := by
  cases level <;> simp [processEdge, classifyEdge, edgeCatch, hstate, hw]

/-- The buffer after a bit (R201). -/
def Rx.bitBuffer (r : Rx) (level : Level) : Memory :=
  Memory.write r.rxBuf r.byteCnt.toNat (shiftIn (Memory.read r.rxBuf r.byteCnt.toNat) level)

/-- R201: a bit below the eighth. -/
theorem processEdge_bit_inner (e : Nat) (hstate : r.state = .framing)
    (hw : inWin e (frameUs c.bitRate) = true) (hbit : r.bitCnt.toNat + 1 ≠ 8) :
    processEdge c t level e r =
      ⟨{ r with ref := t, prev := level, bitCnt := r.bitCnt + 1, rxBuf := r.bitBuffer level }, 0,
        none⟩ := by
  rw [processEdge_bit e hstate hw, acceptBit_inner hbit]
  simp [edgeCatch, hstate, Rx.bitBuffer]

/-- R203: the eighth bit of a byte that does not fill the buffer. -/
theorem processEdge_bit_byte (e : Nat) (hstate : r.state = .framing)
    (hw : inWin e (frameUs c.bitRate) = true) (hbit : r.bitCnt.toNat + 1 = 8)
    (hroom : r.byteCnt.toNat + 1 ≠ c.cap) :
    processEdge c t level e r =
      ⟨{ r with
          ref := t, prev := level, bitCnt := 0, byteCnt := r.byteCnt + 1,
          rxBuf := r.bitBuffer level }, 0, none⟩ := by
  rw [processEdge_bit e hstate hw, acceptBit_byte hbit]
  simp [edgeCatch, hstate, hroom, Rx.bitBuffer]

/-- R203, R204: the eighth bit of the byte that fills the buffer. -/
theorem processEdge_bit_overflow (e : Nat) (hstate : r.state = .framing)
    (hw : inWin e (frameUs c.bitRate) = true) (hbit : r.bitCnt.toNat + 1 = 8)
    (hfull : r.byteCnt.toNat + 1 = c.cap) :
    processEdge c t level e r =
      ⟨{ r with
          state := if level then .edgeCandidate else .idle, ref := t, prev := level, bitCnt := 0,
          byteCnt := r.byteCnt + 1, rxBuf := r.bitBuffer level }, 0, some .rxOverflow⟩ := by
  rw [processEdge_bit e hstate hw, acceptBit_byte hbit]
  cases level <;> simp [edgeCatch, hfull, Rx.bitBuffer]

/-! ### All rows -/

/-- The rows of R216: what each asks of the registers and the sample, and its whole result. -/
inductive RxRow (W : Nat) (c : RxConfig) (t : Nat) (level : Level) (r : Rx) : StepResult → Prop
  | accept (h : Accepts W c t r) :
    RxRow W c t level r
      ⟨Rx.expose c.chkMode { r with state := .idle },
        (Rx.expose c.chkMode { r with state := .idle }).size, none⟩
  | reject (hstate : r.state = .framing) (hsilence : startUs c.bitRate < elapsed W t r.ref)
    (hbad : ¬ Accepts W c t r) :
    RxRow W c t level r ⟨{ r with state := .idle }, 0,
      some (if r.byteCnt.toNat < 2 then .shortFrame else .checksumMismatch)⟩
  | still (hopen : ¬ (r.state = .framing ∧ startUs c.bitRate < elapsed W t r.ref))
    (hsame : level = r.prev) : RxRow W c t level r ⟨r, 0, none⟩
  | idleEdge (hstate : r.state = .idle) (hedge : level ≠ r.prev) :
    RxRow W c t level r
      ⟨{ r with state := if level then .edgeCandidate else .idle, ref := t, prev := level }, 0,
        none⟩
  | start (hstate : r.state = .edgeCandidate) (hedge : level ≠ r.prev)
    (hw : inWin (elapsed W t r.ref) (startUs c.bitRate) = true) :
    RxRow W c t level r ⟨{ acceptStart c t r with prev := level }, 0, none⟩
  | noise (hstate : r.state = .edgeCandidate) (hedge : level ≠ r.prev)
    (hw : inWin (elapsed W t r.ref) (startUs c.bitRate) = false) :
    RxRow W c t level r
      ⟨{ r with state := if level then .edgeCandidate else .idle, ref := t, prev := level }, 0,
        some .timingNoiseStart⟩
  | ignored (hstate : r.state = .framing) (hopen : elapsed W t r.ref ≤ startUs c.bitRate)
    (hedge : level ≠ r.prev) (hw : inWin (elapsed W t r.ref) (frameUs c.bitRate) = false) :
    RxRow W c t level r ⟨{ r with prev := level }, 0, some .timingNoiseBit⟩
  | bit (hstate : r.state = .framing) (hopen : elapsed W t r.ref ≤ startUs c.bitRate)
    (hedge : level ≠ r.prev) (hw : inWin (elapsed W t r.ref) (frameUs c.bitRate) = true)
    (hbit : r.bitCnt.toNat + 1 ≠ 8) :
    RxRow W c t level r
      ⟨{ r with ref := t, prev := level, bitCnt := r.bitCnt + 1, rxBuf := r.bitBuffer level }, 0,
        none⟩
  | byte (hstate : r.state = .framing) (hopen : elapsed W t r.ref ≤ startUs c.bitRate)
    (hedge : level ≠ r.prev) (hw : inWin (elapsed W t r.ref) (frameUs c.bitRate) = true)
    (hbit : r.bitCnt.toNat + 1 = 8) (hroom : r.byteCnt.toNat + 1 ≠ c.cap) :
    RxRow W c t level r
      ⟨{ r with
          ref := t, prev := level, bitCnt := 0, byteCnt := r.byteCnt + 1,
          rxBuf := r.bitBuffer level }, 0, none⟩
  | overflow (hstate : r.state = .framing) (hopen : elapsed W t r.ref ≤ startUs c.bitRate)
    (hedge : level ≠ r.prev) (hw : inWin (elapsed W t r.ref) (frameUs c.bitRate) = true)
    (hbit : r.bitCnt.toNat + 1 = 8) (hfull : r.byteCnt.toNat + 1 = c.cap) :
    RxRow W c t level r
      ⟨{ r with
          state := if level then .edgeCandidate else .idle, ref := t, prev := level, bitCnt := 0,
          byteCnt := r.byteCnt + 1, rxBuf := r.bitBuffer level }, 0, some .rxOverflow⟩

/-- Every step is one of the rows: a close, no edge, or an edge in one of the three states. -/
theorem rxStep_row (W : Nat) (c : RxConfig) (t : Nat) (level : Level) (r : Rx) :
    RxRow W c t level r (rxStep W c t level r) := by
  by_cases hclose : r.state = .framing ∧ startUs c.bitRate < elapsed W t r.ref
  · by_cases haccepts : Accepts W c t r
    · rw [rxStep_accept haccepts]; exact .accept haccepts
    · rw [rxStep_reject hclose.1 hclose.2 haccepts]; exact .reject hclose.1 hclose.2 haccepts
  · by_cases hedge : level = r.prev
    · rw [rxStep_noEdge (not_close_iff.mpr hclose) hedge]; exact .still hclose hedge
    · rw [rxStep_edge (not_close_iff.mpr hclose) hedge]
      cases hstate : r.state with
      | idle => rw [processEdge_idle _ hstate]; exact .idleEdge hstate hedge
      | edgeCandidate =>
        cases hw : inWin (elapsed W t r.ref) (startUs c.bitRate) with
        | true => rw [processEdge_start _ hstate hw]; exact .start hstate hedge hw
        | false => rw [processEdge_noise_any _ hstate hw]; exact .noise hstate hedge hw
      | framing =>
        have hopen : elapsed W t r.ref ≤ startUs c.bitRate := by
          by_contra hlt; exact hclose ⟨hstate, by omega⟩
        cases hw : inWin (elapsed W t r.ref) (frameUs c.bitRate) with
        | false => rw [processEdge_ignored _ hstate hw]; exact .ignored hstate hopen hedge hw
        | true =>
          by_cases hbit : r.bitCnt.toNat + 1 = 8
          · by_cases hfull : r.byteCnt.toNat + 1 = c.cap
            · rw [processEdge_bit_overflow _ hstate hw hbit hfull]
              exact .overflow hstate hopen hedge hw hbit hfull
            · rw [processEdge_bit_byte _ hstate hw hbit hfull]
              exact .byte hstate hopen hedge hw hbit hfull
          · rw [processEdge_bit_inner _ hstate hw hbit]
            exact .bit hstate hopen hedge hw hbit

end

/-! ### The statements about single rows -/

/-- Settles O28: the row of a rejecting close. -/
theorem silenceCloseRejectsBadFrame : Obligations.SilenceCloseRejectsBadFrame :=
  fun _ _ _ _ _ hframing hsilence hbad => rxStep_reject hframing hsilence hbad

/-- A clear leaves the bytes outside the capacity. -/
theorem Memory.read_clear_of_le {cap i : Nat} (m : Memory) (hi : cap ≤ i) :
    Memory.read (Memory.clear cap m) i = Memory.read m i := by
  have hfind : Table.find i (Memory.clear cap m) = Table.find i m := by
    induction m with
    | nil => rfl
    | cons cell rest ih =>
      obtain ⟨j, v⟩ := cell
      unfold Memory.clear at ih ⊢
      by_cases hj : cap ≤ j
      · simp [hj, Table.find, ih]
      · simp [hj, Table.find, ih, show j ≠ i by omega]
  rw [Memory.read, hfind, Memory.read]

/-- Settles O29: the row of a start acceptance. -/
theorem startAcceptanceClearsTheFrame : Obligations.StartAcceptanceClearsTheFrame := by
  intro W t c r level hstate hedge hw
  have hstep : rxStep W c t level r = ⟨{ acceptStart c t r with prev := level }, 0, none⟩ :=
    (rxStep_edge_of_ne_framing (by simp [hstate]) hedge).trans (processEdge_start _ hstate hw)
  refine ⟨_, hstep, rfl, rfl, rfl, rfl, rfl, rfl, rfl, fun i => ?_⟩
  change Memory.read (Memory.clear c.cap r.rxBuf) i = _
  split
  · exact Memory.read_clear i ‹_›
  · exact Memory.read_clear_of_le r.rxBuf (by omega)

/-- Settles O30: with `PREV` 1 the edge is falling, which is the row of noise without a new catch.
-/
theorem noiseReturnsToIdle : Obligations.NoiseReturnsToIdle := by
  intro W t c r level hstate hprev hedge hw
  obtain rfl : level = false := by simpa [hprev] using hedge
  rw [rxStep_edge_of_ne_framing (by simp [hstate]) hedge, processEdge_noise _ hstate hw rfl]

/-- R201: the shifted byte, as the statements write it. -/
theorem shiftIn_eq (b : Byte) (level : Level) :
    shiftIn b level = (b >>> 1) ||| (if level then 0x80 else 0x00) := by
  cases level <;> rfl

/-- R201: only the byte being received changes. -/
theorem Rx.read_bitBuffer {r : Rx} (hwf : Memory.wf r.rxBuf) (level : Level) (i : Nat) :
    Memory.read (r.bitBuffer level) i =
      if i = r.byteCnt.toNat then shiftIn (Memory.read r.rxBuf i) level
      else Memory.read r.rxBuf i := by
  split
  · subst i; exact Memory.read_write_self _ hwf _ _
  · exact Memory.read_write_ne _ ‹_› _

/-- A byte count below a legal capacity counts on without wrapping. -/
theorem toNat_byteCnt_succ {cap : Nat} {n : Count} (hcap : cap ≤ 65535) (hn : n.toNat < cap) :
    (n + 1).toNat = n.toNat + 1 := by
  bv_omega

/-- Settles O31: the row is a bit, a byte or the overflow, by the two counters. -/
theorem inWindowEdgeShiftsABit : Obligations.InWindowEdgeShiftsABit := by
  intro W t c r level hstate hedge hopen hw hwf hcap hroom
  have hread : ∀ i, Memory.read (r.bitBuffer level) i = _ := fun i =>
    (Rx.read_bitBuffer hwf level i).trans (by rw [shiftIn_eq])
  have hstep := rxStep_edge_of_le hopen hedge
  by_cases hbit : r.bitCnt.toNat + 1 = 8
  · have hbyte := toNat_byteCnt_succ hcap hroom
    by_cases hfull : r.byteCnt.toNat + 1 = c.cap
    · rw [processEdge_bit_overflow _ hstate hw hbit hfull] at hstep
      exact ⟨_, _, hstep, rfl, rfl, rfl, rfl, hread, fun h => by omega,
        fun _ => ⟨rfl, hbyte, fun h => by omega, fun _ => ⟨rfl, rfl⟩⟩⟩
    · rw [processEdge_bit_byte _ hstate hw hbit hfull] at hstep
      exact ⟨_, _, hstep, rfl, rfl, rfl, rfl, hread, fun h => by omega,
        fun _ => ⟨rfl, hbyte, fun _ => ⟨hstate, rfl⟩, fun h => absurd h hfull⟩⟩
  · have hcount : (r.bitCnt + 1).toNat = r.bitCnt.toNat + 1 := by bv_omega
    rw [processEdge_bit_inner _ hstate hw hbit] at hstep
    exact ⟨_, _, hstep, rfl, rfl, rfl, rfl, hread, fun _ => ⟨hstate, hcount, rfl, rfl⟩,
      fun h => by omega⟩

/-- Settles O32: the row of an edge outside the bit window. -/
theorem outOfWindowEdgeIsIgnored : Obligations.OutOfWindowEdgeIsIgnored :=
  fun _ _ _ _ _ hstate hedge hopen hw =>
    (rxStep_edge_of_le hopen hedge).trans (processEdge_ignored _ hstate hw)

/-- Settles O33: the row of an edge in IDLE. -/
theorem idleEdgeIsCaught : Obligations.IdleEdgeIsCaught :=
  fun _ _ _ _ _ hstate hedge =>
    (rxStep_edge_of_ne_framing (by simp [hstate]) hedge).trans (processEdge_idle _ hstate)

/-! ### The statements about all rows -/

section
variable {W t : Nat} {c : RxConfig} {r : Rx} {level : Level} {res : StepResult}

/-- R207: a row returns `SIZE` or 0. -/
theorem RxRow.ret_eq_zero (h : RxRow W c t level r res) (hnot : ¬ Accepts W c t r) :
    res.ret = 0 := by
  cases h with
  | accept haccepts => exact absurd haccepts hnot
  | _ => rfl

/-- R194, R217: the size an accepting close exposes. -/
theorem Accepts.size_add (h : Accepts W c t r) :
    (Rx.expose c.chkMode { r with state := .idle }).size.toNat + checksumSize c.chkMode =
      r.byteCnt.toNat := by
  obtain ⟨-, -, hlen, -⟩ := h
  exact Rx.expose_size_toNat_add (r := { r with state := .idle })
    ((checksumSize_le_one c.chkMode).trans (by show 1 ≤ r.byteCnt.toNat; omega))

end

/-- Settles O36: the accepting row returns `SIZE`; every other returns 0. -/
theorem onlyAcceptanceReturnsASize : Obligations.OnlyAcceptanceReturnsASize := by
  intro W t c r level
  refine ⟨fun h => ?_, (rxStep_row W c t level r).ret_eq_zero⟩
  rw [rxStep_accept h]

/-- Settles O38: a size that is not 0 comes from an accepting close, in FRAMING with two bytes or
more and below the capacity. -/
theorem acceptedFrameSizes : Obligations.AcceptedFrameSizes := by
  intro W t c r level hsound hret
  have haccepts : Accepts W c t r := by
    by_contra hnot; exact hret ((rxStep_row W c t level r).ret_eq_zero hnot)
  have hsize := haccepts.size_add
  have hslot := hsound.slotExists haccepts.1
  rw [rxStep_accept haccepts]
  obtain ⟨-, -, hlen, -⟩ := haccepts
  dsimp only
  omega

/-- Settles O37: the state each row leaves; in EDGE_CANDIDATE a sound receiver's edge is falling. -/
theorem stateTakesOnlyListedPaths : Obligations.StateTakesOnlyListedPaths := by
  intro W t c r level hsound q
  have hrow : RxRow W c t level r (rxStep W c t level r) := rxStep_row W c t level r
  have hcand := hsound.candidateHigh
  subst q
  generalize rxStep W c t level r = res at hrow ⊢
  cases hrow with
  | accept h => simp [h.1, Rx.expose]
  | reject hstate => simp [hstate]
  | still _ _ => cases r.state <;> simp
  | idleEdge hstate hedge => cases level <;> simp_all
  | start hstate => simp [hstate, acceptStart, Rx.clearReady]
  | noise hstate hedge => cases level <;> simp_all
  | ignored hstate => simp [hstate]
  | bit hstate => simp [hstate]
  | byte hstate => simp [hstate]
  | overflow hstate => cases level <;> simp [hstate]

end Sys2Proof.Machine
end

section
/-! SUPPORT. The receiver commands: the state their step leaves, how each ends, and the fault of a
step that would leave the buffer (spec/41_receive.md section 2; spec/20_memory.md R87). -/

namespace Sys2Proof.Machine

section
variable (k : Nat) (c : RxConfig) (r : Rx) (s : State)

/-! ### The state when the step is done -/

@[simp] theorem afterStep_result : (afterStep k c r s).1 = stepResult s c r := rfl
@[simp] theorem afterStep_clockWidth : (afterStep k c r s).2.clockWidth = s.clockWidth := rfl
@[simp] theorem afterStep_host : (afterStep k c r s).2.host = s.host := rfl
@[simp] theorem afterStep_responses : (afterStep k c r s).2.responses = s.responses := rfl
@[simp] theorem afterStep_events :
    (afterStep k c r s).2.events = s.events ++ (stepResult s c r).event.toList := rfl
@[simp] theorem afterStep_ports :
    (afterStep k c r s).2.ports = s.ports.sample s.clockWidth c.pin := rfl
@[simp] theorem afterStep_units :
    (afterStep k c r s).2.units = Table.insert k (.rx c (stepResult s c r).rx) s.units := rfl
@[simp] theorem afterStep_unit_self :
    (afterStep k c r s).2.unit k = some (.rx c (stepResult s c r).rx) :=
  Table.find_insert_self ..

end

/-- The step's sample, for whatever state has those ports (R191). -/
theorem sampledOnce_of_ports {s t : State} {c : RxConfig}
    (h : t.ports = s.ports.sample s.clockWidth c.pin) : SampledOnce c.pin s t := by
  simp [SampledOnce, h]

theorem othersKept_of_units {k : Nat} {s t : State} {u : CodecUnit}
    (hwidth : t.clockWidth = s.clockWidth) (hunits : t.units = Table.insert k u s.units) :
    OthersKept k s t :=
  ⟨hwidth, fun j hj => by rw [State.unit, hunits, Table.find_insert_ne hj]; rfl⟩

/-- Of two insertions at one key the last one counts. -/
@[simp] theorem Table.insert_insert_self {α : Type} (k : Nat) (v w : α) (m : Table α) :
    Table.insert k v (Table.insert k w m) = Table.insert k v m := by
  induction m with
  | nil => simp [Table.insert]
  | cons entry rest ih =>
    obtain ⟨j, a⟩ := entry
    rcases lt_trichotomy k j with hlt | rfl | hgt
    · simp [Table.insert, hlt]
    · simp [Table.insert]
    · simp [Table.insert, ih, show ¬ k < j by omega, show k ≠ j by omega]

/-! ### The commands that run a step -/

/-- The next step of the receiver stays in its buffer (R82, R87). -/
def StepInRange (s : State) (c : RxConfig) (r : Rx) : Prop :=
  rxInRange s.clockWidth c (s.ports.nextClock s.clockWidth) (s.ports.sampleLevel s.clockWidth) r
    = true

section
variable {s : State} {k : Nat} {c : RxConfig} {r : Rx}

theorem Rx.slotFree.stepInRange (h : r.slotFree c) : StepInRange s c r := rxInRange_of_slot h

theorem stepUnit_fault {finish : StepResult → State → State} (h : ¬ StepInRange s c r) :
    stepUnit k c r s finish = .fault (.bufferIndexOutOfRange k r.byteCnt.toNat) := by
  unfold StepInRange at h
  simp [stepUnit, h]

theorem exec_rxPoll (hunit : s.unit k = some (.rx c r)) :
    exec (.rxPoll k) s = stepUnit k c r s (fun res s' => s'.retire (.size res.ret)) := by
  simp [exec, execRxPoll, State.findRx_eq.mpr hunit]

theorem exec_rxPollBlocking (hunit : s.unit k = some (.rx c r)) :
    exec (.rxPollBlocking k) s = stepUnit k c r s (fun res s' =>
      if res.rx.state = .framing then s' else s'.retire (.size res.ret)) := by
  simp [exec, execRxPollBlocking, State.findRx_eq.mpr hunit]

theorem exec_rxHasData (hunit : s.unit k = some (.rx c r)) :
    exec (.rxHasData k) s = stepUnit k c r s (fun res s' =>
      (s'.setUnit k (.rx c res.rx.clearReady)).retire (.hasData res.rx.ready)) := by
  simp [exec, execRxHasData, State.findRx_eq.mpr hunit]

/-- While the inner step leaves the receiver FRAMING, RX_POLL_BLOCKING stays pending (R210). -/
theorem exec_rxPollBlocking_pending (hunit : s.unit k = some (.rx c r)) (hrange : StepInRange s c r)
    (hframing : (stepResult s c r).rx.state = .framing) :
    exec (.rxPollBlocking k) s = .next (afterStep k c r s).2 := by
  rw [exec_rxPollBlocking hunit, stepUnit_next hrange, afterStep_result, if_pos hframing]

/-- Otherwise it ends with that step's size (R210). -/
theorem exec_rxPollBlocking_done (hunit : s.unit k = some (.rx c r)) (hrange : StepInRange s c r)
    (hdone : (stepResult s c r).rx.state ≠ .framing) :
    exec (.rxPollBlocking k) s =
      .next ((afterStep k c r s).2.retire (.size (stepResult s c r).ret)) := by
  rw [exec_rxPollBlocking hunit, stepUnit_next hrange, afterStep_result, if_neg hdone]

/-- RX_HAS_DATA whose step stays in the buffer. -/
theorem exec_rxHasData_next (hunit : s.unit k = some (.rx c r)) (hrange : StepInRange s c r) :
    exec (.rxHasData k) s =
      .next (((afterStep k c r s).2.setUnit k (.rx c (stepResult s c r).rx.clearReady)).retire
        (.hasData (stepResult s c r).rx.ready)) := by
  rw [exec_rxHasData hunit, stepUnit_next hrange, afterStep_result]

/-- RX_POLL whose step stays in the buffer. -/
theorem exec_rxPoll_next (hunit : s.unit k = some (.rx c r)) (hrange : StepInRange s c r) :
    exec (.rxPoll k) s =
      .next ((afterStep k c r s).2.retire (.size (stepResult s c r).ret)) := by
  rw [exec_rxPoll hunit, stepUnit_next hrange, afterStep_result]

end

/-- Settles O39: the state after the step, retired with the step's size. -/
theorem rxPollRunsOneStep : Obligations.RxPollRunsOneStep := by
  intro s k c r hunit hslot
  exact ⟨_, exec_rxPoll_next hunit hslot.stepInRange, afterStep_unit_self ..,
    othersKept_of_units rfl (afterStep_units ..), sampledOnce_of_ports rfl, ⟨rfl, rfl⟩, rfl⟩

/-- Settles O40: both ends leave the state after the step, and only one retires the command. -/
theorem rxPollBlockingStepsUntilNotFraming : Obligations.RxPollBlockingStepsUntilNotFraming := by
  intro s k c r hunit hslot
  by_cases hframing : (stepResult s c r).rx.state = .framing
  · exact ⟨_, exec_rxPollBlocking_pending hunit hslot.stepInRange hframing,
      afterStep_unit_self .., othersKept_of_units rfl (afterStep_units ..),
      sampledOnce_of_ports rfl, rfl, fun hdone => absurd hframing hdone, fun _ => ⟨rfl, rfl⟩⟩
  · exact ⟨_, exec_rxPollBlocking_done hunit hslot.stepInRange hframing,
      afterStep_unit_self .., othersKept_of_units rfl (afterStep_units ..),
      sampledOnce_of_ports rfl, rfl, fun _ => ⟨rfl, rfl⟩, fun h => absurd h hframing⟩

/-- Settles O41: the state after the step, with the flag cleared and returned. -/
theorem rxHasDataTestsAndClears : Obligations.RxHasDataTestsAndClears := by
  intro s k c r hunit hslot
  refine ⟨_, exec_rxHasData_next hunit hslot.stepInRange, State.setUnit_unit_self ..,
    othersKept_of_units (u := .rx c (stepResult s c r).rx.clearReady) rfl ?_,
    sampledOnce_of_ports rfl, ⟨rfl, rfl⟩, rfl⟩
  rw [State.retire_units, State.setUnit_units, afterStep_units, Table.insert_insert_self]

/-- A bit whose slot does not exist is out of range (R80, R87). -/
theorem not_rxInRange_of_bit {W t : Nat} {c : RxConfig} {r : Rx} {level : Level}
    (hstate : r.state = .framing) (hfull : c.cap ≤ r.byteCnt.toNat) (hedge : level ≠ r.prev)
    (hopen : elapsed W t r.ref ≤ startUs c.bitRate)
    (hw : inWin (elapsed W t r.ref) (frameUs c.bitRate) = true) :
    ¬ rxInRange W c t level r = true := by
  simp [rxInRange, hstate, isSilence, Nat.not_lt.mpr hopen, hedge, hw, hfull]

/-- Settles O44: the three commands run the step, which is out of range. -/
theorem bitBeyondTheBufferFaults : Obligations.BitBeyondTheBufferFaults := by
  intro s k c r hunit hstate hfull hedge hopen hw i hi
  have hout : ¬ StepInRange s c r := not_rxInRange_of_bit hstate hfull hedge hopen hw
  simp only [List.mem_cons, List.not_mem_nil, or_false] at hi
  rcases hi with rfl | rfl | rfl
  · rw [exec_rxPoll hunit, stepUnit_fault hout]
  · rw [exec_rxPollBlocking hunit, stepUnit_fault hout]
  · rw [exec_rxHasData hunit, stepUnit_fault hout]

/-! ### The commands that only read -/

/-- RX_READ_INTO of more than the buffer holds. -/
theorem exec_rxReadInto_tooLarge {s : State} {k n : Nat} {c : RxConfig} {r : Rx}
    (hunit : s.unit k = some (.rx c r)) (hlarge : c.cap < n) :
    exec (.rxReadInto k n) s =
      .next ((s.logEvent (some .readTooLarge)).retire (.readInto false [])) := by
  simp [exec, execRxReadInto, State.findRx_eq.mpr hunit, hlarge]

/-- RX_READ_INTO within the capacity. -/
theorem exec_rxReadInto_fits {s : State} {k n : Nat} {c : RxConfig} {r : Rx}
    (hunit : s.unit k = some (.rx c r)) (hfits : n ≤ c.cap) :
    exec (.rxReadInto k n) s =
      .next (s.retire (.readInto true (Memory.readBytes r.rxBuf 0 n))) := by
  simp [exec, execRxReadInto, State.findRx_eq.mpr hunit, Nat.not_lt.mpr hfits]

/-- RX_READ_SIZE on a receiver. -/
theorem exec_rxReadSize {s : State} {k : Nat} {c : RxConfig} {r : Rx}
    (hunit : s.unit k = some (.rx c r)) :
    exec (.rxReadSize k) s = .next (s.retire (.size r.size)) := by
  simp [exec, execRxReadSize, State.findRx_eq.mpr hunit]

/-- RX_READ_INTO's answer, by the receiver it names (R212). -/
def readIntoAnswer (k n : Nat) : Option (RxConfig × Rx) → Response
  | some (c, r) =>
    if c.cap < n then .readInto false [] else .readInto true (Memory.readBytes r.rxBuf 0 n)
  | none => .illegalCommand (encode (.rxReadInto k n))

/-- RX_READ_SIZE's answer, by the receiver it names (R213). -/
def readSizeAnswer (k : Nat) : Option (RxConfig × Rx) → Response
  | some (_, r) => .size r.size
  | none => .illegalCommand (encode (.rxReadSize k))

/-- The command ends in every state with the answer, and touches no unit and no port. -/
def AlwaysAnswers (i : Instr) (answer : State → Response) : Prop :=
  ∀ s, ∃ t, exec i s = .next t ∧ NothingTouched s t ∧ Answered s t (answer s)

theorem alwaysAnswers_rxReadInto (k n : Nat) :
    AlwaysAnswers (.rxReadInto k n) fun s => readIntoAnswer k n (s.findRx k) := by
  intro s
  cases hfind : s.findRx k with
  | none =>
    exact ⟨_, exec_noRx rfl hfind, nothingTouched_refuseCommand .., rfl,
      by simp [readIntoAnswer, hfind]⟩
  | some unit =>
    have hunit := State.findRx_eq.mp hfind
    rcases Nat.lt_or_ge unit.1.cap n with hlarge | hfits
    · exact ⟨_, exec_rxReadInto_tooLarge hunit hlarge, ⟨rfl, rfl, rfl⟩, rfl,
        by simp [readIntoAnswer, hfind, hlarge]⟩
    · exact ⟨_, exec_rxReadInto_fits hunit hfits, ⟨rfl, rfl, rfl⟩, rfl,
        by simp [readIntoAnswer, hfind, Nat.not_lt.mpr hfits]⟩

theorem alwaysAnswers_rxReadSize (k : Nat) :
    AlwaysAnswers (.rxReadSize k) fun s => readSizeAnswer k (s.findRx k) := by
  intro s
  cases hfind : s.findRx k with
  | none =>
    exact ⟨_, exec_noRx rfl hfind, nothingTouched_refuseCommand .., rfl,
      by simp [readSizeAnswer, hfind]⟩
  | some unit =>
    exact ⟨_, exec_rxReadSize (State.findRx_eq.mp hfind), ⟨rfl, rfl, rfl⟩, rfl,
      by simp [readSizeAnswer, hfind]⟩

theorem alwaysAnswers_chkCrc8 (n : Nat) :
    AlwaysAnswers (.chkCrc8 n) fun s => .checksum (crc8 (s.dataPhase n)) :=
  fun _ => ⟨_, rfl, ⟨rfl, rfl, rfl⟩, rfl, rfl⟩

theorem alwaysAnswers_chkXor (n : Nat) :
    AlwaysAnswers (.chkXor n) fun s => .checksum (xor8 (s.dataPhase n)) :=
  fun _ => ⟨_, rfl, ⟨rfl, rfl, rfl⟩, rfl, rfl⟩

/-- Settles O42: above the capacity, and within it. -/
theorem rxReadIntoCopiesTheBuffer : Obligations.RxReadIntoCopiesTheBuffer := by
  intro s k n c r hunit
  rcases Nat.lt_or_ge c.cap n with hlarge | hfits
  · exact ⟨_, exec_rxReadInto_tooLarge hunit hlarge, ⟨rfl, rfl, rfl⟩,
      fun hfits => absurd hlarge (Nat.not_lt.mpr hfits), fun _ => ⟨rfl, rfl, rfl⟩⟩
  · refine ⟨_, exec_rxReadInto_fits hunit hfits, ⟨rfl, rfl, rfl⟩,
      fun _ => ⟨rfl, Memory.readBytes r.rxBuf 0 n, Memory.readBytes_length .., fun i hi => ?_,
        rfl, rfl⟩, fun hlarge => absurd hlarge (Nat.not_lt.mpr hfits)⟩
    rw [Memory.readBytes_getD _ _ _ _ hi, Nat.zero_add]

/-- Settles O43: the response is the register. -/
theorem rxReadSizeReturnsSize : Obligations.RxReadSizeReturnsSize :=
  fun _ _ _ _ hunit => ⟨_, exec_rxReadSize hunit, ⟨rfl, rfl, rfl⟩, ⟨rfl, rfl⟩, rfl⟩

/-- A command whose answer is the same before and after it gives the same response twice. -/
theorem AlwaysAnswers.twice {i : Instr} {answer : State → Response} (h : AlwaysAnswers i answer)
    {s t u : State} (hst : exec i s = .next t) (htu : exec i t = .next u)
    (hsame : NothingTouched s t → t.host = s.host.tail → answer t = answer s) :
    ∃ a, t.responses = s.responses ++ [a] ∧ u.responses = t.responses ++ [a] ∧
      u.units = s.units ∧ u.ports = s.ports := by
  obtain ⟨t', ht, htouched, hhost, hresp⟩ := h s
  obtain rfl : t = t' := Host.Outcome.next.inj (hst.symm.trans ht)
  obtain ⟨u', hu, ⟨-, huunits, huports⟩, -, huresp⟩ := h t
  obtain rfl : u = u' := Host.Outcome.next.inj (htu.symm.trans hu)
  have hanswer := hsame htouched hhost
  obtain ⟨-, hunits, hports⟩ := htouched
  exact ⟨answer s, hresp, hanswer ▸ huresp, huunits.trans hunits, huports.trans hports⟩

theorem NothingTouched.findRx_eq {s t : State} (h : NothingTouched s t) (k : Nat) :
    t.findRx k = s.findRx k := by
  rw [State.findRx, h.unit_eq]; rfl

/-- Settles O56: the receiver's answer is read off units that do not change, the checksum's off the
data that both actions bring. -/
theorem readingCommandsAreIdempotent : Obligations.ReadingCommandsAreIdempotent := by
  intro i s t u w data rest hi hhost hst htu
  have hdata : t.host = s.host.tail → t.dataPhase data.length = s.dataPhase data.length := by
    intro ht
    have ht' : t.host = .command w data :: rest := by rw [ht, hhost, List.tail_cons]
    rw [dataPhase_eq_take ht' le_rfl, dataPhase_eq_take hhost le_rfl]
  rcases hi with ⟨k, n, rfl⟩ | ⟨k, rfl⟩ | rfl | rfl
  · exact (alwaysAnswers_rxReadInto k n).twice hst htu fun h _ =>
      congrArg (readIntoAnswer k n) (h.findRx_eq k)
  · exact (alwaysAnswers_rxReadSize k).twice hst htu fun h _ =>
      congrArg (readSizeAnswer k) (h.findRx_eq k)
  · exact (alwaysAnswers_chkCrc8 _).twice hst htu fun _ ht => by rw [hdata ht]
  · exact (alwaysAnswers_chkXor _).twice hst htu fun _ ht => by rw [hdata ht]

end Sys2Proof.Machine
end

section
/-! SUPPORT. All that a command can do to the units and the ports, and what follows for every
command (spec/10_state.md R43, R51, R52; spec/20_memory.md section 5). -/

namespace Sys2Proof.Machine

/-! ### The effect of a command -/

/-- What a command that goes on leaves: nothing touched, a transmission by the transmitter it
names, or a step of the receiver it names, after which RX_HAS_DATA alone clears the flag. -/
inductive CommandEffect (i : Instr) (s t : State) : Prop
  | untouched (h : NothingTouched s t)
  | sent (k : Nat) (c : TxConfig) (x : Tx) (buf : Memory) (frame : List Byte) (resp : Response)
    (hop : txOperand i = some k) (hunit : s.unit k = some (.tx c x))
    (hbuf : buf = x.txBuf ∨ ∃ n, i = .txSendData k n ∧ n + checksumSize c.chkMode ≤ c.cap ∧
      buf = buildFrame c (s.dataPhase n) x.txBuf)
    (ht : t = afterTransmit k c { x with txBuf := buf } frame resp s)
  | stepped (k : Nat) (c : RxConfig) (r q : Rx)
    (hop : rxOperand i = some k) (hunit : s.unit k = some (.rx c r))
    (hwidth : t.clockWidth = s.clockWidth)
    (hports : t.ports = s.ports.sample s.clockWidth c.pin)
    (hunits : t.units = Table.insert k (.rx c q) s.units)
    (hq : q = (stepResult s c r).rx ∨
      (i = .rxHasData k ∧ q = (stepResult s c r).rx.clearReady ∧
        t.responses = s.responses ++ [.hasData (stepResult s c r).rx.ready]))

section
variable {i : Instr} {s t : State}

/-- A command that always answers touches nothing. -/
theorem AlwaysAnswers.effect {answer : State → Response} (h : AlwaysAnswers i answer)
    (hexec : exec i s = .next t) : CommandEffect i s t := by
  obtain ⟨t', ht, htouched, -⟩ := h s
  obtain rfl : t' = t := Host.Outcome.next.inj (ht.symm.trans hexec)
  exact .untouched htouched

theorem CommandEffect.of_refused {w : CommandWord} (h : Host.Outcome.next (s.refuseCommand w) =
    (Host.Outcome.next t : Host.Outcome State Fault Refusal)) : CommandEffect i s t := by
  obtain rfl := Host.Outcome.next.inj h
  exact .untouched (nothingTouched_refuseCommand s w)

/-- A transmitter command on a transmitter. -/
theorem effect_of_findTx {k : Nat} {unit : TxConfig × Tx} (hop : txOperand i = some k)
    (hfind : s.findTx k = some unit) (hexec : exec i s = .next t) : CommandEffect i s t := by
  obtain ⟨c, x⟩ := unit
  have hunit := State.findTx_eq.mp hfind
  rcases txOperand_cases hop with ⟨n, rfl⟩ | ⟨n, rfl⟩
  · rcases Nat.lt_or_ge c.cap (n + checksumSize c.chkMode) with hlarge | hfits
    · obtain rfl := Host.Outcome.next.inj ((execTxSendData_tooLarge hunit hlarge).symm.trans hexec)
      exact .untouched ⟨rfl, rfl, rfl⟩
    · exact .sent k c x _ _ _ rfl hunit (.inr ⟨n, rfl, hfits, rfl⟩)
        (Host.Outcome.next.inj ((execTxSendData_fits hunit hfits).symm.trans hexec)).symm
  · exact .sent k c x x.txBuf _ _ rfl hunit (.inl rfl)
      (Host.Outcome.next.inj ((execTxWrite_eq hunit n).symm.trans hexec)).symm

/-- A command that runs a step of a receiver. -/
theorem effect_of_stepUnit {k : Nat} {c : RxConfig} {r : Rx} {finish : StepResult → State → State}
    (hexec : exec i s = stepUnit k c r s finish) (hnext : exec i s = .next t)
    (hfinish : CommandEffect i s (finish (stepResult s c r) (afterStep k c r s).2)) :
    CommandEffect i s t := by
  rcases stepUnit_cases (c := c) (r := r) k s finish with h | ⟨-, h⟩
  · obtain rfl := Host.Outcome.next.inj ((hexec.trans h).symm.trans hnext)
    exact hfinish
  · exact absurd ((hexec.trans h).symm.trans hnext) (by simp)

/-- A receiver command on a receiver. -/
theorem effect_of_findRx {k : Nat} {unit : RxConfig × Rx} (hop : rxOperand i = some k)
    (hfind : s.findRx k = some unit) (hexec : exec i s = .next t) : CommandEffect i s t := by
  obtain ⟨c, r⟩ := unit
  have hunit := State.findRx_eq.mp hfind
  rcases rxOperand_cases hop with rfl | rfl | rfl | ⟨n, rfl⟩ | rfl
  · exact effect_of_stepUnit (exec_rxPoll hunit) hexec
      (.stepped k c r _ rfl hunit rfl rfl rfl (.inl rfl))
  · refine effect_of_stepUnit (exec_rxPollBlocking hunit) hexec ?_
    split
    · exact .stepped k c r _ rfl hunit rfl rfl rfl (.inl rfl)
    · exact .stepped k c r _ rfl hunit rfl rfl rfl (.inl rfl)
  · exact effect_of_stepUnit (exec_rxHasData hunit) hexec
      (.stepped k c r (stepResult s c r).rx.clearReady rfl hunit rfl rfl (by simp)
        (.inr ⟨rfl, rfl, rfl⟩))
  · exact (alwaysAnswers_rxReadInto k n).effect hexec
  · exact (alwaysAnswers_rxReadSize k).effect hexec

/-- A missing unit is a refusal, and the checksum commands name none. -/
theorem exec_effect (hexec : exec i s = .next t) : CommandEffect i s t := by
  rcases operand_cases i with ⟨k, hop⟩ | ⟨k, hop⟩ | ⟨n, rfl⟩ | ⟨n, rfl⟩
  · cases hfind : s.findTx k with
    | none => exact .of_refused ((exec_noTx hop hfind).symm.trans hexec)
    | some unit => exact effect_of_findTx hop hfind hexec
  · cases hfind : s.findRx k with
    | none => exact .of_refused ((exec_noRx hop hfind).symm.trans hexec)
    | some unit => exact effect_of_findRx hop hfind hexec
  · exact (alwaysAnswers_chkCrc8 n).effect hexec
  · exact (alwaysAnswers_chkXor n).effect hexec

/-! ### What follows for every command -/

theorem afterTransmit_units (k : Nat) (c : TxConfig) (x : Tx) (frame : List Byte) (resp : Response)
    (s : State) : (afterTransmit k c x frame resp s).units =
      Table.insert k (.tx c { x with tLast := s.ports.nextClock s.clockWidth, txPin := false })
        s.units := by
  simp [afterTransmit, transmit_tx]

/-- A command writes at most the unit it names, and that unit's registers only. -/
theorem CommandEffect.units (h : CommandEffect i s t) :
    t.clockWidth = s.clockWidth ∧ (t.units = s.units ∨
      ∃ k u v, (txOperand i = some k ∨ rxOperand i = some k) ∧ s.unit k = some u ∧
        v.config = u.config ∧ t.units = Table.insert k v s.units) := by
  cases h with
  | untouched h => exact ⟨h.1, .inl h.units_eq⟩
  | sent k c x buf frame resp hop hunit _ ht =>
    have hunits := ht ▸ afterTransmit_units k c { x with txBuf := buf } frame resp s
    exact ⟨ht ▸ rfl, .inr ⟨k, _, _, .inl hop, hunit, by rfl, hunits⟩⟩
  | stepped k c r q hop hunit hwidth _ hunits _ =>
    exact ⟨hwidth, .inr ⟨k, .rx c r, .rx c q, .inr hop, hunit, rfl, hunits⟩⟩

/-- Settles O50: the unit written keeps its configuration, the others are as before. -/
theorem commandsKeepEveryConfiguration : Obligations.CommandsKeepEveryConfiguration := by
  intro i s t hexec
  obtain ⟨hwidth, hunits | ⟨k, u, v, -, hunit, hconfig, hunits⟩⟩ := (exec_effect hexec).units
  · exact ⟨hwidth, fun j => by rw [State.unit, hunits]; rfl⟩
  · refine ⟨hwidth, fun j => ?_⟩
    by_cases hj : j = k
    · subst hj
      rw [hunit, State.unit, hunits, Table.find_insert_self, Option.map_some, Option.map_some,
        hconfig]
    · rw [(othersKept_of_units hwidth hunits).2 j hj]

/-- Settles O51: the unit written is one the command names. -/
theorem commandActsOnItsUnitOnly : Obligations.CommandActsOnItsUnitOnly := by
  intro i s t hexec j htx hrx
  obtain ⟨hwidth, hunits | ⟨k, u, v, hop, -, -, hunits⟩⟩ := (exec_effect hexec).units
  · rw [State.unit, hunits]; rfl
  · refine (othersKept_of_units hwidth hunits).2 j fun hj => ?_
    rcases hop with hop | hop
    · exact htx (hj ▸ hop)
    · exact hrx (hj ▸ hop)

/-- A unit that is as before is the same unit. -/
theorem unit_eq_of_kept {k : Nat} {u v : CodecUnit} (hkept : t.unit k = s.unit k)
    (hu : s.unit k = some u) (hv : t.unit k = some v) : v = u :=
  Option.some.inj (hv.symm.trans (hkept.trans hu))

/-- The unit that was written is the new one. -/
theorem unit_eq_of_inserted {k : Nat} {u v : CodecUnit}
    (hunits : t.units = Table.insert k u s.units) (hv : t.unit k = some v) : v = u := by
  rw [State.unit, hunits, Table.find_insert_self] at hv
  exact (Option.some.inj hv).symm

/-- What a command can do to a receiver: nothing, or a step as the command that names it. -/
theorem CommandEffect.receiver (h : CommandEffect i s t) {k : Nat} {c : RxConfig} {r q : Rx}
    (hr : s.unit k = some (.rx c r)) (hq : t.unit k = some (.rx c q)) :
    q = r ∨ (rxOperand i = some k ∧ (q = (stepResult s c r).rx ∨
      (i = .rxHasData k ∧ q = (stepResult s c r).rx.clearReady ∧
        t.responses = s.responses ++ [.hasData (stepResult s c r).rx.ready]))) := by
  have hkept (h : t.unit k = s.unit k) : q = r := (CodecUnit.rx.inj (unit_eq_of_kept h hr hq)).2
  cases h with
  | untouched h => exact .inl (hkept (h.unit_eq k))
  | sent j c' x buf frame resp _ hunit _ ht =>
    have hne : k ≠ j := by rintro rfl; simp [hunit] at hr
    exact .inl (hkept (ht ▸ afterTransmit_unit_ne _ _ _ _ _ _ hne))
  | stepped j c' r' q' hop hunit hwidth _ hunits hcase =>
    by_cases hj : k = j
    · subst hj
      obtain ⟨rfl, rfl⟩ := CodecUnit.rx.inj (Option.some.inj (hunit.symm.trans hr))
      obtain ⟨-, rfl⟩ := CodecUnit.rx.inj (unit_eq_of_inserted hunits hq)
      exact .inr ⟨hop, hcase⟩
    · exact .inl (hkept ((othersKept_of_units hwidth hunits).2 k hj))

/-- R51: within a step the flag goes on only by an acceptance. -/
theorem RxRow.accepts_of_ready {W t : Nat} {c : RxConfig} {r : Rx} {level : Level}
    {res : StepResult} (h : RxRow W c t level r res) (hoff : r.ready = false)
    (hon : res.rx.ready = true) : Accepts W c t r := by
  cases h with
  | accept haccepts => exact haccepts
  | start => simp [acceptStart] at hon
  | _ => simp [hoff] at hon

/-- R51: within a step the flag goes off only by a start acceptance. -/
theorem RxRow.start_of_not_ready {W t : Nat} {c : RxConfig} {r : Rx} {level : Level}
    {res : StepResult} (h : RxRow W c t level r res) (hon : r.ready = true)
    (hoff : res.rx.ready = false) : r.state = .edgeCandidate ∧ res.rx.state = .framing := by
  cases h with
  | accept => simp [Rx.expose] at hoff
  | start hstate => exact ⟨hstate, rfl⟩
  | _ => simp [hon] at hoff

/-- R52: within a step `SIZE` is written only by an acceptance. -/
theorem RxRow.accepts_of_size {W t : Nat} {c : RxConfig} {r : Rx} {level : Level}
    {res : StepResult} (h : RxRow W c t level r res) (hsize : res.rx.size ≠ r.size) :
    Accepts W c t r := by
  cases h with
  | accept haccepts => exact haccepts
  | _ => exact absurd rfl hsize

/-- The step's row, as the commands run it. -/
theorem stepResult_row (s : State) (c : RxConfig) (r : Rx) :
    RxRow s.clockWidth c (s.ports.nextClock s.clockWidth) (s.ports.sampleLevel s.clockWidth) r
      (stepResult s c r) :=
  rxStep_row ..

/-- Settles O53: the flag is written by the step's two rows, or by RX_HAS_DATA behind the step. -/
theorem readyHasThreeWriters : Obligations.ReadyHasThreeWriters := by
  intro i s t k c r q hexec hr hq
  have hrow := stepResult_row s c r
  rcases (exec_effect hexec).receiver hr hq with rfl | ⟨hop, rfl | ⟨rfl, rfl, hresp⟩⟩
  · exact ⟨fun hoff hon => by simp [hoff] at hon, fun hon hoff => by simp [hon] at hoff⟩
  · exact ⟨fun hoff hon => ⟨hop, hrow.accepts_of_ready hoff hon⟩,
      fun hon hoff => ⟨hop, .inl (hrow.start_of_not_ready hon hoff)⟩⟩
  · refine ⟨fun _ hon => by simp at hon, fun hon _ => ⟨hop, ?_⟩⟩
    cases hflag : (stepResult s c r).rx.ready with
    | true => exact .inr ⟨rfl, hflag ▸ hresp⟩
    | false => exact .inl (hrow.start_of_not_ready hon hflag)

/-- Settles O54: only the step's accepting row writes `SIZE`, with the size it exposes. -/
theorem onlyAcceptanceWritesSize : Obligations.OnlyAcceptanceWritesSize := by
  intro i s t k c r q hexec hr hq hsize
  have hq' : q.size = (stepResult s c r).rx.size := by
    rcases (exec_effect hexec).receiver hr hq with rfl | ⟨-, rfl | ⟨-, rfl, -⟩⟩
    · exact absurd rfl hsize
    · rfl
    · rfl
  have haccepts := (stepResult_row s c r).accepts_of_size (hq' ▸ hsize)
  refine ⟨haccepts, ?_⟩
  rw [hq', stepResult, rxStep_accept haccepts]
  exact haccepts.size_add

/-- Settles O55: a transmission leaves the buffer it is given, and only TX_SEND_DATA builds one. -/
theorem onlySendDataWritesTxBuf : Obligations.OnlySendDataWritesTxBuf := by
  intro i s t k c x y hexec hx hy hnot
  have hkept (h : t.unit k = s.unit k) : y.txBuf = x.txBuf :=
    congrArg Tx.txBuf (CodecUnit.tx.inj (unit_eq_of_kept h hx hy)).2
  cases exec_effect hexec with
  | untouched h => exact hkept (h.unit_eq k)
  | sent j c' x' buf frame resp hop hunit hbuf ht =>
    by_cases hj : k = j
    · subst hj
      obtain ⟨rfl, rfl⟩ := CodecUnit.tx.inj (Option.some.inj (hunit.symm.trans hx))
      obtain ⟨-, rfl⟩ := CodecUnit.tx.inj (unit_eq_of_inserted (ht ▸ afterTransmit_units ..) hy)
      rcases hbuf with hbuf | ⟨n, hi, -⟩
      · exact hbuf
      · exact absurd hi (hnot n)
    · exact hkept (ht ▸ afterTransmit_unit_ne _ _ _ _ _ _ hj)
  | stepped j c' r q hop hunit hwidth _ hunits _ =>
    have hne : k ≠ j := by rintro rfl; simp [hunit] at hx
    exact hkept ((othersKept_of_units hwidth hunits).2 k hne)

/-- R334: a command's port calls take time or none. -/
theorem CommandEffect.time_le (h : CommandEffect i s t) : s.ports.time ≤ t.ports.time := by
  cases h with
  | untouched h => rw [h.ports_eq]
  | sent k c x buf frame resp _ _ _ ht =>
    rw [ht, afterTransmit_ports, transmit_time]
    omega
  | stepped k c r q _ _ _ hports _ _ =>
    rw [hports, Ports.sample_time]
    omega

/-- Settles O57: a command by its effect; a construction, a refusal and an idle step take no time.
-/
theorem hostTimeNeverGoesBack : Obligations.HostTimeNeverGoesBack := by
  intro s t hstep
  rcases step_cases s with h | ⟨k, config, draw, h⟩ | ⟨i, h⟩ | ⟨w, h⟩
  · obtain rfl := Host.Outcome.next.inj (h.symm.trans hstep)
    exact le_rfl
  · obtain ⟨-, rfl⟩ := execConstruct_eq_next (h.symm.trans hstep)
    exact le_rfl
  · exact (exec_effect (h.symm.trans hstep)).time_le
  · obtain rfl := Host.Outcome.next.inj (h.symm.trans hstep)
    exact le_rfl

end

/-! ### Two machines that differ in other units -/

/-- The two machines agree on everything but the units that are not `named`. -/
structure AgreeOn (named : Nat → Prop) (s₁ s₂ : State) : Prop where
  clockWidth : s₁.clockWidth = s₂.clockWidth
  ports : s₁.ports = s₂.ports
  host : s₁.host = s₂.host
  responses : s₁.responses = s₂.responses
  events : s₁.events = s₂.events
  unit : ∀ k, named k → s₁.unit k = s₂.unit k

namespace AgreeOn

section
variable {named : Nat → Prop} {s₁ s₂ : State} (h : AgreeOn named s₁ s₂)
include h

theorem retire (resp : Response) : AgreeOn named (s₁.retire resp) (s₂.retire resp) :=
  ⟨h.clockWidth, h.ports, congrArg List.tail h.host, congrArg (· ++ [resp]) h.responses, h.events,
    h.unit⟩

theorem logEvent (e : Option Event) : AgreeOn named (s₁.logEvent e) (s₂.logEvent e) :=
  ⟨h.clockWidth, h.ports, h.host, h.responses, congrArg (· ++ e.toList) h.events, h.unit⟩

theorem setPorts (p : Ports) : AgreeOn named (s₁.setPorts p) (s₂.setPorts p) :=
  ⟨h.clockWidth, rfl, h.host, h.responses, h.events, h.unit⟩

theorem setUnit (k : Nat) (u : CodecUnit) : AgreeOn named (s₁.setUnit k u) (s₂.setUnit k u) := by
  refine ⟨h.clockWidth, h.ports, h.host, h.responses, h.events, fun j hj => ?_⟩
  by_cases hjk : j = k
  · subst hjk; simp
  · rw [State.setUnit_unit_ne _ hjk, State.setUnit_unit_ne _ hjk, h.unit j hj]

theorem refuseCommand (w : CommandWord) :
    AgreeOn named (s₁.refuseCommand w) (s₂.refuseCommand w) :=
  (h.logEvent _).retire _

theorem dataPhase (n : Nat) : s₁.dataPhase n = s₂.dataPhase n := by
  simp only [State.dataPhase, State.dataPort, State.nextAction, h.host, h.responses]

theorem findTx {k : Nat} (hk : named k) : s₁.findTx k = s₂.findTx k := by
  rw [State.findTx, h.unit k hk]; rfl

theorem findRx {k : Nat} (hk : named k) : s₁.findRx k = s₂.findRx k := by
  rw [State.findRx, h.unit k hk]; rfl

theorem afterTransmit (k : Nat) (c : TxConfig) (x : Tx) (frame : List Byte) (resp : Response) :
    AgreeOn named (Machine.afterTransmit k c x frame resp s₁)
      (Machine.afterTransmit k c x frame resp s₂) := by
  unfold Machine.afterTransmit
  rw [h.clockWidth, h.ports]
  exact ((h.setPorts _).setUnit k _).retire resp

theorem stepResult (c : RxConfig) (r : Rx) :
    Machine.stepResult s₁ c r = Machine.stepResult s₂ c r := by
  simp only [Machine.stepResult, h.clockWidth, h.ports]

theorem stepInRange (c : RxConfig) (r : Rx) : StepInRange s₁ c r ↔ StepInRange s₂ c r := by
  simp only [StepInRange, h.clockWidth, h.ports]

theorem afterStep (k : Nat) (c : RxConfig) (r : Rx) :
    AgreeOn named (Machine.afterStep k c r s₁).2 (Machine.afterStep k c r s₂).2 := by
  unfold Machine.afterStep
  rw [h.clockWidth, h.ports]
  exact ((h.setPorts _).setUnit k _).logEvent _

end

end AgreeOn

/-- Where the first machine goes on, the second goes on to a state that agrees with it. -/
def GoOnAlike (named : Nat → Prop) (o₁ o₂ : Host.Outcome State Fault Refusal) : Prop :=
  ∀ t₁, o₁ = .next t₁ → ∃ t₂, o₂ = .next t₂ ∧ AgreeOn named t₁ t₂

theorem goOnAlike_next {named : Nat → Prop} {t₁ t₂ : State} (h : AgreeOn named t₁ t₂) :
    GoOnAlike named (.next t₁) (.next t₂) :=
  fun _ heq => ⟨t₂, rfl, Host.Outcome.next.inj heq ▸ h⟩

/-- A command that runs a step looks at its own receiver and the ports. -/
theorem goOnAlike_stepUnit {named : Nat → Prop} {s₁ s₂ : State} (h : AgreeOn named s₁ s₂) (k : Nat)
    (c : RxConfig) (r : Rx) {finish : StepResult → State → State}
    (hfinish : ∀ res t₁ t₂, AgreeOn named t₁ t₂ → AgreeOn named (finish res t₁) (finish res t₂)) :
    GoOnAlike named (stepUnit k c r s₁ finish) (stepUnit k c r s₂ finish) := by
  by_cases hrange : StepInRange s₁ c r
  · rw [stepUnit_next hrange, stepUnit_next ((h.stepInRange c r).mp hrange), afterStep_result,
      afterStep_result, ← h.stepResult]
    exact goOnAlike_next (hfinish _ _ _ (h.afterStep k c r))
  · rw [stepUnit_fault hrange]
    exact fun t₁ heq => by simp at heq

section
variable {named : Nat → Prop} {s₁ s₂ : State} {i : Instr} {k : Nat}

theorem goOnAlike_tx {unit : TxConfig × Tx} (h : AgreeOn named s₁ s₂) (hop : txOperand i = some k)
    (hfind₁ : s₁.findTx k = some unit) (hfind₂ : s₂.findTx k = some unit) :
    GoOnAlike named (exec i s₁) (exec i s₂) := by
  obtain ⟨c, x⟩ := unit
  have hunit₁ := State.findTx_eq.mp hfind₁
  have hunit₂ := State.findTx_eq.mp hfind₂
  rcases txOperand_cases hop with ⟨n, rfl⟩ | ⟨n, rfl⟩
  · rcases Nat.lt_or_ge c.cap (n + checksumSize c.chkMode) with hlarge | hfits
    · rw [exec, exec, execTxSendData_tooLarge hunit₁ hlarge, execTxSendData_tooLarge hunit₂ hlarge]
      exact goOnAlike_next ((h.logEvent _).retire _)
    · rw [exec, exec, execTxSendData_fits hunit₁ hfits, execTxSendData_fits hunit₂ hfits,
        h.dataPhase]
      exact goOnAlike_next (h.afterTransmit ..)
  · rw [exec, exec, execTxWrite_eq hunit₁, execTxWrite_eq hunit₂, h.dataPhase]
    exact goOnAlike_next (h.afterTransmit ..)

theorem goOnAlike_rx {unit : RxConfig × Rx} (h : AgreeOn named s₁ s₂) (hop : rxOperand i = some k)
    (hfind₁ : s₁.findRx k = some unit) (hfind₂ : s₂.findRx k = some unit) :
    GoOnAlike named (exec i s₁) (exec i s₂) := by
  obtain ⟨c, r⟩ := unit
  have hunit₁ := State.findRx_eq.mp hfind₁
  have hunit₂ := State.findRx_eq.mp hfind₂
  rcases rxOperand_cases hop with rfl | rfl | rfl | ⟨n, rfl⟩ | rfl
  · rw [exec_rxPoll hunit₁, exec_rxPoll hunit₂]
    exact goOnAlike_stepUnit h k c r fun _ _ _ h => h.retire _
  · rw [exec_rxPollBlocking hunit₁, exec_rxPollBlocking hunit₂]
    refine goOnAlike_stepUnit h k c r fun res _ _ h => ?_
    split
    · exact h
    · exact h.retire _
  · rw [exec_rxHasData hunit₁, exec_rxHasData hunit₂]
    exact goOnAlike_stepUnit h k c r fun _ _ _ h => (h.setUnit ..).retire _
  · rcases Nat.lt_or_ge c.cap n with hlarge | hfits
    · rw [exec_rxReadInto_tooLarge hunit₁ hlarge, exec_rxReadInto_tooLarge hunit₂ hlarge]
      exact goOnAlike_next ((h.logEvent _).retire _)
    · rw [exec_rxReadInto_fits hunit₁ hfits, exec_rxReadInto_fits hunit₂ hfits]
      exact goOnAlike_next (h.retire _)
  · rw [exec_rxReadSize hunit₁, exec_rxReadSize hunit₂]
    exact goOnAlike_next (h.retire _)

/-- Each command, with the units it names: what it reads agrees, and what it writes is the same. -/
theorem exec_agree (htx : ∀ k, txOperand i = some k → named k)
    (hrx : ∀ k, rxOperand i = some k → named k) (h : AgreeOn named s₁ s₂) :
    GoOnAlike named (exec i s₁) (exec i s₂) := by
  rcases operand_cases i with ⟨k, hop⟩ | ⟨k, hop⟩ | ⟨n, rfl⟩ | ⟨n, rfl⟩
  · have hfind := h.findTx (htx k hop)
    cases hfind₁ : s₁.findTx k with
    | none =>
      rw [exec_noTx hop hfind₁, exec_noTx hop (hfind ▸ hfind₁)]
      exact goOnAlike_next (h.refuseCommand _)
    | some unit => exact goOnAlike_tx h hop hfind₁ (hfind ▸ hfind₁)
  · have hfind := h.findRx (hrx k hop)
    cases hfind₁ : s₁.findRx k with
    | none =>
      rw [exec_noRx hop hfind₁, exec_noRx hop (hfind ▸ hfind₁)]
      exact goOnAlike_next (h.refuseCommand _)
    | some unit => exact goOnAlike_rx h hop hfind₁ (hfind ▸ hfind₁)
  · rw [exec, exec, execChkCrc8, execChkCrc8, h.dataPhase]
    exact goOnAlike_next (h.retire _)
  · rw [exec, exec, execChkXor, execChkXor, h.dataPhase]
    exact goOnAlike_next (h.retire _)

end

/-- Settles O52: the two machines agree on all that the command names, and so do their next
states. -/
theorem otherUnitsHaveNoInfluence : Obligations.OtherUnitsHaveNoInfluence := by
  intro i s₁ s₂ t₁ hwidth hports hhost hresp hevents hunits hexec
  obtain ⟨t₂, ht₂, h⟩ := exec_agree (fun _ => .inl) (fun _ => .inr)
    ⟨hwidth, hports, hhost, hresp, hevents, hunits⟩ t₁ hexec
  exact ⟨t₂, ht₂, h.ports.symm, h.host.symm, h.responses.symm, h.events.symm,
    fun k hk => (h.unit k hk).symm⟩

end Sys2Proof.Machine
end

section
/-! SUPPORT. Every step keeps the invariant, and a sound machine does not fault
(spec/10_state.md R63). -/

namespace Sys2Proof.Machine

/-! ### A receiver's step -/

section
variable {W t : Nat} {c : RxConfig} {r : Rx} {level : Level} {res : StepResult}

/-- R63 (5): while a frame is being received no frame is exposed. -/
theorem Rx.Sound.not_ready (h : r.Sound W c) (hstate : r.state = .framing) : r.ready = false := by
  cases hready : r.ready with
  | false => rfl
  | true => exact absurd hstate (h.readyFrame hready).1

theorem Rx.readyMeansFrame_of_not_ready (h : r.ready = false) : r.readyMeansFrame c :=
  fun hready => by simp [h] at hready

/-- R201: a bit in its slot keeps the buffer canonical and within its capacity. -/
theorem Rx.Sound.bitBuffer (h : r.Sound W c) (hstate : r.state = .framing) (level : Level) :
    Memory.wf (r.bitBuffer level) ∧ Memory.within c.cap (r.bitBuffer level) :=
  ⟨Memory.write_wf h.bufferWf _ _, Memory.write_within h.bufferWithin (h.slotExists hstate) _⟩

/-- R203: a byte that closes is counted without wrapping. -/
theorem Rx.Sound.byteCnt_succ (h : r.Sound W c) (hstate : r.state = .framing) :
    (r.byteCnt + 1).toNat = r.byteCnt.toNat + 1 := by
  obtain ⟨-, -, -, -, hcap⟩ := RxConfig.legal_iff.mp h.legal
  exact toNat_byteCnt_succ hcap (h.slotExists hstate)

/-- Every row keeps the invariant. -/
theorem RxRow.sound (h : RxRow W c t level r res) (hs : r.Sound W c) (ht : t < 2 ^ W) :
    res.rx.Sound W c := by
  obtain ⟨-, -, -, hcap, -⟩ := RxConfig.legal_iff.mp hs.legal
  cases h with
  | accept haccepts =>
    have hsize := haccepts.size_add
    obtain ⟨hstate, -, hlen, hchk⟩ := haccepts
    have hslot := hs.slotExists hstate
    exact ⟨hs.legal, hs.refWidth, hs.countBound, fun h => by simp [Rx.expose] at h,
      fun h => by simp [Rx.expose] at h, .inr (by dsimp only; omega),
      fun _ => ⟨by simp [Rx.expose], hlen, hslot, hsize, hchk⟩, hs.bufferWf, hs.bufferWithin⟩
  | reject hstate =>
    exact ⟨hs.legal, hs.refWidth, hs.countBound, fun h => by simp at h, fun h => by simp at h,
      hs.sizeBound, Rx.readyMeansFrame_of_not_ready (hs.not_ready hstate), hs.bufferWf,
      hs.bufferWithin⟩
  | still => exact hs
  | idleEdge hstate =>
    refine ⟨hs.legal, ht, hs.countBound, fun h => ?_, fun h => ?_, hs.sizeBound, fun hready => ?_,
      hs.bufferWf, hs.bufferWithin⟩
    · cases level <;> simp at h
    · cases level <;> simp at h ⊢
    · obtain ⟨-, hframe⟩ := hs.readyFrame hready
      exact ⟨by cases level <;> simp, hframe⟩
  | start =>
    exact ⟨hs.legal, ht, Nat.zero_le _, fun _ => hcap, fun h => by simp [acceptStart] at h,
      hs.sizeBound, Rx.readyMeansFrame_of_not_ready rfl, Memory.clear_wf hs.bufferWf,
      fun cell hcell => hs.bufferWithin cell (List.mem_of_mem_filter hcell)⟩
  | noise hstate hedge =>
    obtain rfl : level = false := by simpa [hs.candidateHigh hstate] using hedge
    refine ⟨hs.legal, ht, hs.countBound, fun h => by simp at h, fun h => by simp at h,
      hs.sizeBound, fun hready => ?_, hs.bufferWf, hs.bufferWithin⟩
    obtain ⟨-, hframe⟩ := hs.readyFrame hready
    exact ⟨by simp, hframe⟩
  | ignored hstate =>
    exact ⟨hs.legal, hs.refWidth, hs.countBound, hs.slotExists,
      fun h => by simp [hstate] at h, hs.sizeBound,
      Rx.readyMeansFrame_of_not_ready (hs.not_ready hstate), hs.bufferWf, hs.bufferWithin⟩
  | bit hstate =>
    obtain ⟨hwf, hwithin⟩ := hs.bitBuffer hstate level
    exact ⟨hs.legal, ht, hs.countBound, hs.slotExists, fun h => by simp [hstate] at h,
      hs.sizeBound, Rx.readyMeansFrame_of_not_ready (hs.not_ready hstate), hwf, hwithin⟩
  | byte hstate _ _ _ _ hroom =>
    obtain ⟨hwf, hwithin⟩ := hs.bitBuffer hstate level
    have hcount := hs.byteCnt_succ hstate
    have hslot := hs.slotExists hstate
    exact ⟨hs.legal, ht, by dsimp only; omega, fun _ => by dsimp only; omega,
      fun h => by simp [hstate] at h, hs.sizeBound,
      Rx.readyMeansFrame_of_not_ready (hs.not_ready hstate), hwf, hwithin⟩
  | overflow hstate _ _ _ _ hfull =>
    obtain ⟨hwf, hwithin⟩ := hs.bitBuffer hstate level
    have hcount := hs.byteCnt_succ hstate
    refine ⟨hs.legal, ht, by dsimp only; omega, fun h => ?_, fun h => ?_, hs.sizeBound,
      Rx.readyMeansFrame_of_not_ready (hs.not_ready hstate), hwf, hwithin⟩
    · cases level <;> simp at h
    · cases level <;> simp at h ⊢

/-- R211: clearing the flag keeps the invariant. -/
theorem Rx.Sound.clearReady (h : r.Sound W c) : r.clearReady.Sound W c :=
  ⟨h.legal, h.refWidth, h.countBound, h.slotExists, h.candidateHigh, h.sizeBound,
    Rx.readyMeansFrame_of_not_ready rfl, h.bufferWf, h.bufferWithin⟩

theorem Rx.Sound.step (h : r.Sound W c) (ht : t < 2 ^ W) (level : Level) :
    (rxStep W c t level r).rx.Sound W c :=
  (rxStep_row W c t level r).sound h ht

end

/-! ### A transmission -/

theorem buildFrame_wf (c : TxConfig) (payload : List Byte) {buf : Memory} (h : Memory.wf buf) :
    Memory.wf (buildFrame c payload buf) := by
  rw [buildFrame_eq c payload h]
  exact Memory.writeBytes_wf h 0 _

/-- R156: a frame that fits is written within the capacity. -/
theorem buildFrame_within {c : TxConfig} {payload : List Byte} {buf : Memory} (hwf : Memory.wf buf)
    (h : Memory.within c.cap buf) (hfits : payload.length + checksumSize c.chkMode ≤ c.cap) :
    Memory.within c.cap (buildFrame c payload buf) := by
  rw [buildFrame_eq c payload hwf]
  refine Memory.writeBytes_within h 0 _ ?_
  rw [List.length_append, checksum_toList_length]
  omega

/-- What a transmission leaves of a sound transmitter (R150, R152, R154). -/
theorem Tx.Sound.transmitted {W : Nat} {c : TxConfig} {x : Tx} {buf : Memory} {t0 : Nat}
    (h : x.Sound W c) (ht0 : t0 < 2 ^ W) (hwf : Memory.wf buf) (hwithin : Memory.within c.cap buf) :
    Tx.Sound W c { x with txBuf := buf, tLast := t0, txPin := false } :=
  ⟨h.legal, ht0, rfl, hwf, hwithin⟩

/-! ### The machine -/

section
variable {s t : State}

theorem State.Sound.unit_sound (h : s.Sound) {k : Nat} {u : CodecUnit} (hunit : s.unit k = some u) :
    u.Sound s.clockWidth :=
  h.units _ (Table.mem_of_find hunit)

/-- A sound unit in the place of a number, on a pin no other number has, keeps the machine sound. -/
theorem State.Sound.insert (h : s.Sound) {k : Nat} {u : CodecUnit} (hk : k < 256)
    (hu : u.Sound s.clockWidth) (hpin : s.pinFree k u.pin = true)
    (hwidth : t.clockWidth = s.clockWidth) (hunits : t.units = Table.insert k u s.units) :
    t.Sound := by
  have hcases : ∀ entry ∈ t.units, entry = (k, u) ∨ (entry ∈ s.units ∧ entry.1 ≠ k) :=
    fun entry hentry => Table.mem_insert_ne h.tableSorted (hunits ▸ hentry)
  have hfree := State.pinFree_iff.mp hpin
  refine ⟨hunits ▸ Table.insert_sorted k u h.tableSorted, fun entry hentry => ?_,
    fun entry hentry => ?_, fun a ha b hb hab => ?_⟩
  · rcases hcases entry hentry with rfl | ⟨hmem, -⟩
    · exact hk
    · exact h.instances entry hmem
  · rw [hwidth]
    rcases hcases entry hentry with rfl | ⟨hmem, -⟩
    · exact hu
    · exact h.units entry hmem
  · rcases hcases a ha with rfl | ⟨hamem, hak⟩ <;> rcases hcases b hb with rfl | ⟨hbmem, hbk⟩
    · rfl
    · exact absurd hab.symm (hfree b hbmem hbk)
    · exact absurd hab (hfree a hamem hak)
    · exact h.pinsApart a hamem b hbmem hab

/-- A sound machine's own unit has a pin that is free for its number. -/
theorem State.Sound.pinFree_own (h : s.Sound) {k : Nat} {u : CodecUnit}
    (hunit : s.unit k = some u) : s.pinFree k u.pin = true :=
  State.pinFree_iff.mpr fun entry hentry hne hpin =>
    hne (h.pinsApart entry hentry (k, u) (Table.mem_of_find hunit) hpin)

/-- A unit may be written with a sound unit on the same pin. -/
theorem State.Sound.update (h : s.Sound) {k : Nat} {u v : CodecUnit} (hunit : s.unit k = some u)
    (hv : v.Sound s.clockWidth) (hpin : v.pin = u.pin) (hwidth : t.clockWidth = s.clockWidth)
    (hunits : t.units = Table.insert k v s.units) : t.Sound :=
  h.insert (h.instances _ (Table.mem_of_find hunit)) hv (hpin ▸ h.pinFree_own hunit) hwidth hunits

theorem State.Sound.of_nothingTouched (h : s.Sound) (ht : NothingTouched s t) : t.Sound := by
  obtain ⟨hwidth, hunits, -⟩ := ht
  exact ⟨hunits ▸ h.tableSorted, hunits ▸ h.instances, by rw [hunits, hwidth]; exact h.units,
    by rw [hunits]; exact h.pinsApart⟩

/-- Every command keeps the invariant, by its effect. -/
theorem CommandEffect.sound {i : Instr} (h : CommandEffect i s t) (hs : s.Sound) : t.Sound := by
  cases h with
  | untouched h => exact hs.of_nothingTouched h
  | sent k c x buf frame resp _ hunit hbuf ht =>
    have hx : x.Sound s.clockWidth c := hs.unit_sound hunit
    have hbuf : Memory.wf buf ∧ Memory.within c.cap buf := by
      rcases hbuf with rfl | ⟨n, -, hfits, rfl⟩
      · exact ⟨hx.bufferWf, hx.bufferWithin⟩
      · exact ⟨buildFrame_wf c _ hx.bufferWf,
          buildFrame_within hx.bufferWf hx.bufferWithin (by simpa using hfits)⟩
    subst ht
    have hunits := afterTransmit_units k c { x with txBuf := buf } frame resp s
    exact hs.update hunit (v := .tx c _) (hx.transmitted (Ports.nextClock_lt ..) hbuf.1 hbuf.2) rfl
      rfl hunits
  | stepped k c r q _ hunit hwidth _ hunits hq =>
    have hr : r.Sound s.clockWidth c := hs.unit_sound hunit
    have hstep : (stepResult s c r).rx.Sound s.clockWidth c := hr.step (Ports.nextClock_lt ..) _
    refine hs.update hunit (v := .rx c q) ?_ rfl hwidth hunits
    rcases hq with rfl | ⟨-, rfl, -⟩
    · exact hstep
    · exact hstep.clearReady

/-- R60, R61: a constructed unit is sound. -/
theorem CodecUnit.constructed_sound {W : Nat} {config : UnitConfig} (h : config.legal W = true)
    (draw : ResetDraw) : (CodecUnit.constructed W draw config).Sound W := by
  cases config with
  | tx c => exact ⟨h, clockValue_lt .., rfl, Memory.drawn_wf .., Memory.drawn_within _ _⟩
  | rx c =>
    exact ⟨h, clockValue_lt .., Nat.zero_le _, fun h => by simp [Rx.constructed] at h,
      fun h => by simp [Rx.constructed] at h, .inl rfl, Rx.readyMeansFrame_of_not_ready rfl,
      Memory.drawn_wf .., Memory.drawn_within _ _⟩

theorem CodecUnit.constructed_pin (W : Nat) (draw : ResetDraw) (config : UnitConfig) :
    (CodecUnit.constructed W draw config).pin = config.pin := by
  cases config <;> rfl

/-- A construction keeps the invariant. -/
theorem execConstruct_sound {k : Nat} {config : UnitConfig} {draw : ResetDraw} (hs : s.Sound)
    (h : execConstruct k config draw s = .next t) : t.Sound := by
  obtain ⟨⟨hk, hlegal, hfree⟩, rfl⟩ := execConstruct_eq_next h
  exact hs.insert hk (CodecUnit.constructed_sound hlegal draw)
    ((CodecUnit.constructed_pin ..).symm ▸ hfree) rfl rfl

end

/-- Settles O48: a construction, a command by its effect, a refusal, an idle step. -/
theorem everyStepKeepsSoundness : Obligations.EveryStepKeepsSoundness := by
  intro s t hs hstep
  rcases step_cases s with h | ⟨k, config, draw, h⟩ | ⟨i, h⟩ | ⟨w, h⟩
  · obtain rfl := Host.Outcome.next.inj (h.symm.trans hstep)
    exact hs
  · exact execConstruct_sound hs (h.symm.trans hstep)
  · exact (exec_effect (h.symm.trans hstep)).sound hs
  · obtain rfl := Host.Outcome.next.inj (h.symm.trans hstep)
    exact hs.of_nothingTouched (nothingTouched_refuseCommand s w)

/-! ### No fault -/

theorem not_faults_next (s : State) : ¬ Faults (.next s) := by simp [Faults]

/-- A receiver command faults only where a step would leave the buffer. -/
theorem not_faults_of_findRx {s : State} {i : Instr} {k : Nat} {c : RxConfig} {r : Rx}
    (hop : rxOperand i = some k) (hunit : s.unit k = some (.rx c r)) (hrange : StepInRange s c r) :
    ¬ Faults (exec i s) := by
  rcases rxOperand_cases hop with rfl | rfl | rfl | ⟨n, rfl⟩ | rfl
  · rw [exec_rxPoll_next hunit hrange]; exact not_faults_next _
  · rw [exec_rxPollBlocking hunit, stepUnit_next hrange]; exact not_faults_next _
  · rw [exec_rxHasData_next hunit hrange]; exact not_faults_next _
  · obtain ⟨t, ht, -⟩ := alwaysAnswers_rxReadInto k n s
    rw [ht]; exact not_faults_next t
  · rw [exec_rxReadSize hunit]; exact not_faults_next _

/-- A transmitter command never faults. -/
theorem not_faults_of_findTx {s : State} {i : Instr} {k : Nat} {c : TxConfig} {x : Tx}
    (hop : txOperand i = some k) (hunit : s.unit k = some (.tx c x)) : ¬ Faults (exec i s) := by
  rcases txOperand_cases hop with ⟨n, rfl⟩ | ⟨n, rfl⟩
  · rcases Nat.lt_or_ge c.cap (n + checksumSize c.chkMode) with hlarge | hfits
    · rw [exec, execTxSendData_tooLarge hunit hlarge]; exact not_faults_next _
    · rw [exec, execTxSendData_fits hunit hfits]; exact not_faults_next _
  · rw [exec, execTxWrite_eq hunit]; exact not_faults_next _

/-- R87: no command of a sound machine faults. -/
theorem State.Sound.not_faults_exec {s : State} (hs : s.Sound) (i : Instr) :
    ¬ Faults (exec i s) := by
  rcases operand_cases i with ⟨k, hop⟩ | ⟨k, hop⟩ | ⟨n, rfl⟩ | ⟨n, rfl⟩
  · cases hfind : s.findTx k with
    | none => rw [exec_noTx hop hfind]; exact not_faults_next _
    | some unit => exact not_faults_of_findTx hop (State.findTx_eq.mp hfind)
  · cases hfind : s.findRx k with
    | none => rw [exec_noRx hop hfind]; exact not_faults_next _
    | some unit =>
      have hunit := State.findRx_eq.mp hfind
      have hr : unit.2.Sound s.clockWidth unit.1 := hs.unit_sound hunit
      exact not_faults_of_findRx hop hunit hr.inRange
  · exact not_faults_next _
  · exact not_faults_next _

theorem not_faults_execConstruct (k : Nat) (config : UnitConfig) (draw : ResetDraw) (s : State) :
    ¬ Faults (execConstruct k config draw s) := by
  by_cases hc : Constructible s k config
  · rw [execConstruct_of_constructible hc]; exact not_faults_next _
  · simp [execConstruct_of_not_constructible hc, Faults]

/-- Settles O49: the fault guards the step of a receiver, and a sound one stays in its buffer. -/
theorem soundMachineNeverFaults : Obligations.SoundMachineNeverFaults := by
  intro s hs
  rcases step_cases s with h | ⟨k, config, draw, h⟩ | ⟨i, h⟩ | ⟨w, h⟩
  · rw [h]; exact not_faults_next _
  · rw [h]; exact not_faults_execConstruct _ _ _ _
  · rw [h]; exact hs.not_faults_exec i
  · rw [h]; exact not_faults_next _

end Sys2Proof.Machine
end

section
/-! SUPPORT. How long RX_POLL_BLOCKING runs: a bound when host time goes on, and no end when it
stops (spec/70_reset_and_hazards.md R343; spec/41_receive.md R210). -/

namespace Sys2Proof.Machine

/-! ### Runs -/

theorem run_succ {s t : State} (h : step s = .next t) (n : Nat) :
    Host.Core.run Sys2Proof.core (n + 1) s = Host.Core.run Sys2Proof.core n t := by
  have hcore : Sys2Proof.core.step s = .next t := h
  simp [Host.Core.run, hcore]

theorem run_idle {s : State} (h : s.host = []) (n : Nat) :
    Host.Core.run Sys2Proof.core n s = .next s := by
  induction n with
  | zero => rfl
  | succ n ih => rw [run_succ (step_idle h), ih]

/-- The word at the head is RX_POLL_BLOCKING's. -/
theorem step_rxPollBlocking {s : State} {k : Nat} {data : List Byte} {rest : List HostAction}
    (hk : k < 256) (hhost : s.host = .command (encode (.rxPollBlocking k)) data :: rest) :
    step s = exec (.rxPollBlocking k) s :=
  step_command hhost (decodeInvertsEncode _ (by simpa [Instr.wellFormed] using hk))

/-! ### A stopped clock -/

/-- R208: with no gap and no edge before the silence, the step changes nothing. -/
theorem stepResult_still {s : State} {c : RxConfig} {r : Rx} {gaps : List Nat}
    {levels : List Level} (hgaps : s.ports.gaps = 0 :: gaps)
    (hlevels : s.ports.levels = r.prev :: levels)
    (hopen :
      elapsed s.clockWidth (clockValue s.clockWidth s.ports.time) r.ref ≤ startUs c.bitRate) :
    stepResult s c r = ⟨r, 0, none⟩ := by
  have hclock : s.ports.nextClock s.clockWidth = clockValue s.clockWidth s.ports.time := by
    simp [Ports.nextClock, Ports.nextGap, hgaps]
  have hlevel : s.ports.sampleLevel s.clockWidth = r.prev := by
    simp [Ports.sampleLevel, Ports.nextLevel, hlevels]
  rw [stepResult, hclock, hlevel]
  exact rxStep_noEdge (not_close_iff.mpr fun h => Nat.not_lt.mpr hopen h.2) rfl

/-- Settles O46: each step is a still one, after which the same holds with one draw less. -/
theorem stoppedClockLeavesPollBlockingPending :
    Obligations.StoppedClockLeavesPollBlockingPending := by
  intro s k n c r data rest hunit hk hslot hstate hhost hopen hgaps hlevels
  induction n generalizing s with
  | zero => exact ⟨s, rfl, rfl, rfl, hunit⟩
  | succ n ih =>
    rw [List.replicate_succ] at hgaps hlevels
    have hres := stepResult_still hgaps hlevels hopen
    have hstep : step s = .next (afterStep k c r s).2 :=
      (step_rxPollBlocking hk hhost).trans
        (exec_rxPollBlocking_pending hunit hslot.stepInRange (by rw [hres]; exact hstate))
    have htime : (afterStep k c r s).2.ports.time = s.ports.time := by
      simp [Ports.nextGap, hgaps]
    obtain ⟨t, hrun, hthost, htresp, htunit⟩ := ih (afterStep k c r s).2
      (by rw [afterStep_unit_self, hres]) hhost (by rw [htime]; exact hopen) (by simp [hgaps])
      (by simp [hlevels])
    exact ⟨t, (run_succ hstep n).trans hrun, hthost, htresp, htunit⟩

/-! ### A running clock -/

@[simp] theorem elapsed_self (W t : Nat) : elapsed W t t = 0 := by
  simpa using elapsedIsModularDifference W t t

/-- The receiver is FRAMING, the silence has not come, and `m` steps on a running clock are enough
to end: `b` bits fit behind the one being waited for, and each may take `START_US + 1` samples, of
which the elapsed time has used its part. -/
def EndsWithin (W : Nat) (c : RxConfig) (time : Nat) (r : Rx) (m : Nat) : Prop :=
  r.state = .framing ∧ elapsed W (clockValue W time) r.ref ≤ startUs c.bitRate ∧
    ∃ b, 8 * r.byteCnt.toNat + r.bitCnt.toNat + b + 1 = 8 * c.cap ∧
      (b + 1) * (startUs c.bitRate + 1) ≤ m + elapsed W (clockValue W time) r.ref

section
variable {W time gap m : Nat} {c : RxConfig} {r : Rx} {level : Level} {res : StepResult}

/-- Some step is still to come. -/
theorem not_endsWithin_zero : ¬ EndsWithin W c time r 0 := by
  rintro ⟨-, hopen, b, -, hsteps⟩
  have : startUs c.bitRate + 1 ≤ (b + 1) * (startUs c.bitRate + 1) :=
    Nat.le_mul_of_pos_left _ (by omega)
  omega

/-- A step that leaves the receiver FRAMING leaves it before the silence. -/
theorem RxRow.open_of_framing {t : Nat} (h : RxRow W c t level r res)
    (hstate : res.rx.state = .framing) : elapsed W t res.rx.ref ≤ startUs c.bitRate := by
  cases h with
  | accept => simp [Rx.expose] at hstate
  | reject => simp at hstate
  | still hopen => exact Nat.not_lt.mp fun hlt => hopen ⟨hstate, hlt⟩
  | ignored _ hopen => exact hopen
  | start => simp [acceptStart, Rx.clearReady]
  | _ => simp

/-- A sound FRAMING receiver has at most all the bits of its buffer to wait for. -/
theorem endsWithin_of_framing (hs : r.Sound W c) (hstate : r.state = .framing)
    (hopen : elapsed W (clockValue W time) r.ref ≤ startUs c.bitRate) :
    EndsWithin W c time r (8 * c.cap * (startUs c.bitRate + 1)) := by
  have hslot := hs.slotExists hstate
  have hbit := r.bitCnt.isLt
  refine ⟨hstate, hopen, 8 * c.cap - (8 * r.byteCnt.toNat + r.bitCnt.toNat + 1), by omega, ?_⟩
  exact (Nat.mul_le_mul_right _ (by omega)).trans (Nat.le_add_right _ _)

/-- A sample on a running clock ends the reception, or uses up one of the steps: time goes on, or
a bit less is to come. -/
theorem RxRow.endsWithin (h : RxRow W c (clockValue W (time + gap)) level r res) (hs : r.Sound W c)
    (hm : EndsWithin W c time r (m + 1)) (hgap : 1 ≤ gap) (hwrap : gap < 2 ^ W - startUs c.bitRate)
    (hstate' : res.rx.state = .framing) : EndsWithin W c (time + gap) res.rx m := by
  obtain ⟨hstate, hopen, b, hbits, hsteps⟩ := hm
  have hslot := hs.slotExists hstate
  have hmul : (b + 1) * (startUs c.bitRate + 1) =
      b * (startUs c.bitRate + 1) + startUs c.bitRate + 1 := by ring
  have helapsed : elapsed W (clockValue W (time + gap)) r.ref =
      elapsed W (clockValue W time) r.ref + gap := by
    rw [elapsed_clockValue_add, Nat.mod_eq_of_lt (by omega)]
  have hopen' := h.open_of_framing hstate'
  refine ⟨hstate', hopen', ?_⟩
  cases h with
  | accept => simp [Rx.expose] at hstate'
  | reject => simp at hstate'
  | still => exact ⟨b, hbits, by dsimp only; omega⟩
  | ignored => exact ⟨b, hbits, by dsimp only; omega⟩
  | bit _ _ _ _ hbit =>
    have hcount : (r.bitCnt + 1).toNat = r.bitCnt.toNat + 1 := by bv_omega
    obtain ⟨b, rfl⟩ : ∃ b', b = b' + 1 := ⟨b - 1, by omega⟩
    exact ⟨b, by dsimp only; omega, by rw [elapsed_self]; omega⟩
  | byte _ _ _ _ hbit hroom =>
    have hcount := hs.byteCnt_succ hstate
    obtain ⟨b, rfl⟩ : ∃ b', b = b' + 1 := ⟨b - 1, by omega⟩
    exact ⟨b, by dsimp only; simp; omega, by rw [elapsed_self]; omega⟩
  | overflow => cases level <;> simp at hstate'
  | idleEdge hidle => simp [hstate] at hidle
  | start hcand => simp [hstate] at hcand
  | noise hcand => simp [hstate] at hcand

end

/-! ### The command -/

/-- The command has ended with a size as its response. -/
def EndsWithSize (n : Nat) (s : State) : Prop :=
  ∃ t size, Host.Core.run Sys2Proof.core n s = .next t ∧ t.host = [] ∧
    t.responses = s.responses ++ [.size size]

/-- The clock's next `n` gaps are drawn, each at least 1 µs and none mistaken across a wrap. -/
def ClockRuns (c : RxConfig) (n : Nat) (s : State) : Prop :=
  n ≤ s.ports.gaps.length ∧
    ∀ g ∈ s.ports.gaps, 1 ≤ g ∧ g < 2 ^ s.clockWidth - startUs c.bitRate

section
variable {s : State} {k n m : Nat} {c : RxConfig} {r : Rx} {data : List Byte}

theorem ClockRuns.nextGap (h : ClockRuns c (n + 1) s) :
    1 ≤ s.ports.nextGap ∧ s.ports.nextGap < 2 ^ s.clockWidth - startUs c.bitRate := by
  obtain ⟨hlen, hgaps⟩ := h
  obtain ⟨g, rest, hcons⟩ := List.exists_cons_of_length_pos (show 0 < s.ports.gaps.length by omega)
  have hnext : s.ports.nextGap = g := by simp [Ports.nextGap, hcons]
  exact hnext ▸ hgaps g (by simp [hcons])

theorem ClockRuns.afterStep (h : ClockRuns c (n + 1) s) : ClockRuns c n (afterStep k c r s).2 := by
  obtain ⟨hlen, hgaps⟩ := h
  refine ⟨?_, fun g hg => hgaps g (List.mem_of_mem_tail hg)⟩
  rw [afterStep_ports, Ports.sample_gaps, List.length_tail]
  omega

/-- One machine step of the pending command: it ends, or it is pending behind the receiver's step.
-/
theorem pollBlocking_step (hs : s.Sound) (hunit : s.unit k = some (.rx c r)) (hk : k < 256)
    (hhost : s.host = [.command (encode (.rxPollBlocking k)) data])
    (hrest : (stepResult s c r).rx.state = .framing → EndsWithSize n (afterStep k c r s).2) :
    EndsWithSize (n + 1) s := by
  have hr : r.Sound s.clockWidth c := hs.unit_sound hunit
  have hstep := step_rxPollBlocking hk hhost
  by_cases hframing : (stepResult s c r).rx.state = .framing
  · rw [exec_rxPollBlocking_pending hunit hr.inRange hframing] at hstep
    obtain ⟨t, size, hrun, hthost, hresp⟩ := hrest hframing
    exact ⟨t, size, (run_succ hstep n).trans hrun, hthost, hresp⟩
  · rw [exec_rxPollBlocking_done hunit hr.inRange hframing] at hstep
    have hdone : ((Machine.afterStep k c r s).2.retire
        (.size (stepResult s c r).ret)).host = [] := by simp [hhost]
    exact ⟨_, _, (run_succ hstep n).trans (run_idle hdone n), hdone, rfl⟩

/-- The invariant holds behind a step of the pending command. -/
theorem State.Sound.afterStep (hs : s.Sound) (hunit : s.unit k = some (.rx c r)) :
    (afterStep k c r s).2.Sound := by
  have hr : r.Sound s.clockWidth c := hs.unit_sound hunit
  exact hs.update hunit (v := .rx c (stepResult s c r).rx) (hr.step (Ports.nextClock_lt ..) _)
    rfl rfl rfl

/-- A pending command ends within the steps its receiver has left. -/
theorem pollBlocking_ends (hk : k < 256) (hs : s.Sound) (hunit : s.unit k = some (.rx c r))
    (hhost : s.host = [.command (encode (.rxPollBlocking k)) data])
    (hm : EndsWithin s.clockWidth c s.ports.time r m) (hmn : m ≤ n) (hclock : ClockRuns c n s) :
    EndsWithSize n s := by
  induction m generalizing n s r with
  | zero => exact absurd hm not_endsWithin_zero
  | succ m ih =>
    obtain ⟨n, rfl⟩ : ∃ n', n = n' + 1 := ⟨n - 1, by omega⟩
    have hr : r.Sound s.clockWidth c := hs.unit_sound hunit
    obtain ⟨hgap, hwrap⟩ := hclock.nextGap
    refine pollBlocking_step hs hunit hk hhost fun hframing => ?_
    exact ih (hs.afterStep hunit) (afterStep_unit_self ..) hhost
      ((stepResult_row s c r).endsWithin hr hm hgap hwrap hframing) (by omega) hclock.afterStep

end

/-- Settles O45: the first step ends the command or leaves a reception of at most all the buffer's
bits, which ends in time. -/
theorem pollBlockingEndsWhenTimeGoesOn : Obligations.PollBlockingEndsWhenTimeGoesOn := by
  intro s k n c r data hs hunit hk hhost hbound hlen hgaps
  obtain ⟨n, rfl⟩ : ∃ n', n = n' + 1 := ⟨n - 1, by omega⟩
  have hclock : ClockRuns c (n + 1) s := ⟨hlen, hgaps⟩
  have hr : r.Sound s.clockWidth c := hs.unit_sound hunit
  refine pollBlocking_step hs hunit hk hhost fun hframing => ?_
  have hopen := (stepResult_row s c r).open_of_framing hframing
  have hsound : (stepResult s c r).rx.Sound s.clockWidth c := hr.step (Ports.nextClock_lt ..) _
  exact pollBlocking_ends hk (hs.afterStep hunit) (afterStep_unit_self ..) hhost
    (endsWithin_of_framing hsound hframing hopen) (by omega) hclock.afterStep

end Sys2Proof.Machine
end

section
/-! SUPPORT. The round trip: what a receiver that samples the line at the start of each segment
makes of the preamble, the start marker, the bit cells and the silence (spec/30_encoding.md R110
to R117; spec/70_reset_and_hazards.md R346). -/

namespace Sys2Proof.Machine

/-! ### Receiving segments -/

/-- The receiver after one sample at the start of each segment of a line that begins at `start`. -/
def receive (W : Nat) (c : RxConfig) : Nat → List Segment → Rx → Rx
  | _, [], r => r
  | start, seg :: rest, r =>
    receive W c (start + seg.us) rest (rxStep W c (clockValue W start) seg.level r).rx

section
variable {W start : Nat} {c : RxConfig} {r : Rx}

/-- The samples of a line are those of its segments and the low level at its end. -/
theorem feed_lineSamples (W : Nat) (c : RxConfig) (start : Nat) (segs : List Segment) (r : Rx) :
    feed W c r (lineSamples start segs) =
      (rxStep W c (clockValue W (start + nominalUs segs)) false (receive W c start segs r)).rx := by
  induction segs generalizing start r with
  | nil => rfl
  | cons seg rest ih =>
    rw [nominalUs_cons, ← Nat.add_assoc]
    exact ih ..

theorem receive_append (a b : List Segment) :
    receive W c start (a ++ b) r =
      receive W c (start + nominalUs a) b (receive W c start a r) := by
  induction a generalizing start r with
  | nil => rfl
  | cons seg rest ih =>
    rw [List.cons_append, nominalUs_cons, ← Nat.add_assoc]
    exact ih

/-! ### Preamble and start marker -/

/-- Between preamble pulses the receiver is sound and IDLE on a low line. -/
structure IdleLow (W : Nat) (c : RxConfig) (r : Rx) : Prop where
  sound : r.Sound W c
  state : r.state = .idle
  prev : r.prev = false

/-- R204: the rising edge of a pulse is caught. -/
theorem IdleLow.rise (h : IdleLow W c r) (t : Nat) :
    (rxStep W c t true r).rx = { r with state := .edgeCandidate, ref := t, prev := true } := by
  rw [idleEdgeIsCaught W t c r true h.state (by simp [h.prev])]
  rfl

/-- No time a legal configuration knows reaches the clock's range (R14). -/
theorem lt_two_pow_of_le_startUs {e : Nat} (hlegal : c.legal W = true)
    (he : e ≤ 4 * startUs c.bitRate) : e < 2 ^ W := by
  obtain ⟨-, -, hclock, -, -⟩ := RxConfig.legal_iff.mp hlegal
  omega

/-- What the windows make of a legal configuration's line (R116, R117). -/
theorem windows_of_legal (hlegal : c.legal W = true) :
    inWin (2 * halfUs c.bitRate) (frameUs c.bitRate) = true ∧
      inWin (halfUs c.bitRate) (frameUs c.bitRate) = false ∧
      inWin (startUs c.bitRate) (startUs c.bitRate) = true ∧
      inWin (frameUs c.bitRate) (startUs c.bitRate) = false ∧
      2 * halfUs c.bitRate ≤ startUs c.bitRate ∧ frameUs c.bitRate ≤ startUs c.bitRate := by
  obtain ⟨hlow, hhigh, -, -, -⟩ := RxConfig.legal_iff.mp hlegal
  obtain ⟨hmid, hedge, -, -, hstart, hpulse, hhalf⟩ := windowsSeparateLineCodeEdges _ hlow hhigh
  have hrel := timing_relations hlow hhigh
  exact ⟨hmid, hedge, hstart, hpulse, hhalf, by omega⟩

/-- R199: a preamble pulse is too short for a start, so it leaves the receiver as it found it. -/
theorem IdleLow.receive_pulse (h : IdleLow W c r) (start : Nat) :
    IdleLow W c (receive W c start (preamblePulse c.bitRate) r) := by
  have hsound : (receive W c start (preamblePulse c.bitRate) r).Sound W c :=
    (h.sound.step (clockValue_lt ..) true).step (clockValue_lt ..) false
  obtain ⟨-, -, -, hpulse, -, hle⟩ := windows_of_legal h.sound.legal
  have hfall : (receive W c start (preamblePulse c.bitRate) r) =
      { r with
        state := .idle, ref := clockValue W (start + frameUs c.bitRate), prev := false } := by
    simp only [receive, preamblePulse, h.rise]
    rw [noiseReturnsToIdle W _ c _ false rfl rfl (by simp)]
    rwa [elapsed_clockValue_of_lt _ (lt_two_pow_of_le_startUs h.sound.legal (by omega))]
  exact ⟨hsound, by rw [hfall], by rw [hfall]⟩

theorem IdleLow.receive_preamble (h : IdleLow W c r) (pulses start : Nat) :
    IdleLow W c
      (receive W c start (List.replicate pulses (preamblePulse c.bitRate)).flatten r) := by
  induction pulses generalizing start r with
  | zero => exact h
  | succ n ih =>
    rw [List.replicate_succ, List.flatten_cons, receive_append]
    exact ih (h.receive_pulse start) _

/-- The receiver has the bytes `done` and `n` bits of the next one, the last of them at `time`. -/
structure Receiving (W : Nat) (c : RxConfig) (time : Nat) (done : List Byte) (n : Nat) (r : Rx) :
    Prop where
  state : r.state = .framing
  ref : r.ref = clockValue W time
  bitCnt : r.bitCnt.toNat = n
  byteCnt : r.byteCnt.toNat = done.length
  wf : Memory.wf r.rxBuf
  bytes : Memory.readBytes r.rxBuf 0 done.length = done

/-- R198: the falling edge of the start marker begins the frame. -/
theorem IdleLow.receive_startMarker (h : IdleLow W c r) (start : Nat) :
    Receiving W c (start + startUs c.bitRate) [] 0
      (receive W c start (startMarker c.bitRate) r) := by
  obtain ⟨-, -, hstart, -, -, -⟩ := windows_of_legal h.sound.legal
  have hfall := rxStep_edge_of_ne_framing (W := W) (c := c)
    (t := clockValue W (start + startUs c.bitRate)) (level := false)
    (r := { r with state := .edgeCandidate, ref := clockValue W start, prev := true })
    (by simp) (by simp)
  rw [elapsed_clockValue_of_lt _ (lt_two_pow_of_le_startUs h.sound.legal (by omega)),
    processEdge_start _ rfl hstart] at hfall
  simp only [receive, startMarker, h.rise, hfall]
  exact ⟨rfl, rfl, rfl, rfl, Memory.clear_wf h.sound.bufferWf, rfl⟩

/-! ### Bit cells -/

variable {time n : Nat} {done : List Byte}

/-- R202: half a bit period after a bit there is no edge, or one that is ignored. -/
theorem Receiving.half (h : Receiving W c time done n r) (hlegal : c.legal W = true)
    (level : Level) :
    (rxStep W c (clockValue W (time + halfUs c.bitRate)) level r).rx =
      { r with prev := level } := by
  obtain ⟨-, hedge, -, -, hle, -⟩ := windows_of_legal hlegal
  have helapsed : elapsed W (clockValue W (time + halfUs c.bitRate)) r.ref = halfUs c.bitRate := by
    rw [h.ref, elapsed_clockValue_of_lt _ (lt_two_pow_of_le_startUs hlegal (by omega))]
  by_cases hlevel : level = r.prev
  · rw [noChangeStepWritesNothing W _ c r level hlevel (by rw [helapsed]; omega), hlevel]
  · rw [outOfWindowEdgeIsIgnored W _ c r level h.state hlevel (by omega) (by rwa [helapsed])]

/-- R113, R201: in a bit cell the half before the bit changes `PREV` at most, and the edge in its
middle is the bit. -/
theorem Receiving.receive_bitCell (h : Receiving W c time done n r) (hlegal : c.legal W = true)
    (bit : Bool) :
    receive W c (time + halfUs c.bitRate) (bitCell c.bitRate bit) r =
      (processEdge c (clockValue W (time + 2 * halfUs c.bitRate)) bit (2 * halfUs c.bitRate)
        { r with prev := !bit }).rx := by
  obtain ⟨-, -, -, -, hle, -⟩ := windows_of_legal hlegal
  have helapsed :
      elapsed W (clockValue W (time + 2 * halfUs c.bitRate)) r.ref = 2 * halfUs c.bitRate := by
    rw [h.ref, elapsed_clockValue_of_lt _ (lt_two_pow_of_le_startUs hlegal (by omega))]
  simp only [receive, bitCell, h.half hlegal]
  rw [Nat.add_assoc, ← Nat.two_mul, rxStep_edge_of_le (by dsimp only; omega) (by simp)]
  dsimp only
  rw [helapsed]

/-- A byte behind those received does not change them. -/
theorem readBytes_bitBuffer {m : Nat} (hm : m ≤ r.byteCnt.toNat) (level : Level) :
    Memory.readBytes (r.bitBuffer level) 0 m = Memory.readBytes r.rxBuf 0 m :=
  Memory.readBytes_congr fun j _ hj => Memory.read_write_ne _ (by omega) _

/-- R201: a cell below the eighth. -/
theorem Receiving.receive_inner (h : Receiving W c time done n r) (hlegal : c.legal W = true)
    (hn : n + 1 < 8) (bit : Bool) :
    Receiving W c (time + 2 * halfUs c.bitRate) done (n + 1)
        (receive W c (time + halfUs c.bitRate) (bitCell c.bitRate bit) r) ∧
      Memory.read (receive W c (time + halfUs c.bitRate) (bitCell c.bitRate bit) r).rxBuf
          done.length =
        shiftIn (Memory.read r.rxBuf done.length) bit := by
  obtain ⟨hmid, -⟩ := windows_of_legal hlegal
  have hbit : r.bitCnt.toNat + 1 ≠ 8 := by rw [h.bitCnt]; omega
  rw [h.receive_bitCell hlegal, processEdge_bit_inner (r := { r with prev := !bit }) _ h.state hmid
    hbit]
  refine ⟨⟨h.state, rfl, ?_, h.byteCnt, Memory.write_wf h.wf _ _, ?_⟩, ?_⟩
  · have hcount := h.bitCnt
    dsimp only
    bv_omega
  · exact (readBytes_bitBuffer h.byteCnt.ge bit).trans h.bytes
  · rw [← h.byteCnt]
    exact Memory.read_write_self _ h.wf _ _

/-- R203: the eighth cell. -/
theorem Receiving.receive_last (h : Receiving W c time done 7 r) (hlegal : c.legal W = true)
    (hroom : done.length + 1 < c.cap) (bit : Bool) :
    Receiving W c (time + 2 * halfUs c.bitRate)
      (done ++ [shiftIn (Memory.read r.rxBuf done.length) bit]) 0
      (receive W c (time + halfUs c.bitRate) (bitCell c.bitRate bit) r) := by
  obtain ⟨hmid, -⟩ := windows_of_legal hlegal
  obtain ⟨-, -, -, -, hcap⟩ := RxConfig.legal_iff.mp hlegal
  have hbit : r.bitCnt.toNat + 1 = 8 := by rw [h.bitCnt]
  have hbyte := h.byteCnt
  have hcount := toNat_byteCnt_succ hcap (show r.byteCnt.toNat < c.cap by omega)
  rw [h.receive_bitCell hlegal, processEdge_bit_byte (r := { r with prev := !bit }) _ h.state hmid
    hbit (by dsimp only; omega)]
  refine ⟨h.state, rfl, rfl, ?_, Memory.write_wf h.wf _ _, ?_⟩
  · rw [List.length_append, List.length_singleton, ← hbyte]
    exact hcount
  · rw [List.length_append, List.length_singleton, Memory.readBytes_succ, Nat.zero_add]
    congr 2
    · exact (readBytes_bitBuffer h.byteCnt.ge bit).trans h.bytes
    · rw [← hbyte]
      exact Memory.read_write_self _ h.wf _ _

/-- The cells of a byte's remaining bits. -/
theorem Receiving.receive_bits (h : Receiving W c time done n r) (hlegal : c.legal W = true)
    (hroom : done.length + 1 < c.cap) {bits : List Bool} (hne : bits ≠ [])
    (hlen : n + bits.length = 8) :
    Receiving W c (time + 2 * bits.length * halfUs c.bitRate)
      (done ++ [bits.foldl shiftIn (Memory.read r.rxBuf done.length)]) 0
      (receive W c (time + halfUs c.bitRate) (bits.flatMap (bitCell c.bitRate)) r) := by
  induction bits generalizing time n r with
  | nil => exact absurd rfl hne
  | cons bit rest ih =>
    by_cases hrest : rest = []
    · subst hrest
      obtain rfl : n = 7 := by simpa using hlen
      simpa using h.receive_last hlegal hroom bit
    · have hpos := List.length_pos_iff.mpr hrest
      rw [List.length_cons] at hlen
      obtain ⟨hinner, hread⟩ := h.receive_inner hlegal (by omega) bit
      have hcells := ih hinner hrest (by omega)
      rw [hread] at hcells
      have hnext : time + halfUs c.bitRate + nominalUs (bitCell c.bitRate bit) =
          time + 2 * halfUs c.bitRate + halfUs c.bitRate := by
        simp only [bitCell, nominalUs_cons, nominalUs_nil]
        ring
      have hend : time + 2 * (rest.length + 1) * halfUs c.bitRate =
          time + 2 * halfUs c.bitRate + 2 * rest.length * halfUs c.bitRate := by ring
      rw [List.flatMap_cons, receive_append, List.foldl_cons, List.length_cons, hnext, hend]
      exact hcells

/-- R201: one shift moves every bit down and puts the level on top. -/
theorem getLsbD_shiftIn (b : Byte) (level : Level) {i : Nat} (hi : i < 8) :
    (shiftIn b level).getLsbD i = if i = 7 then level else b.getLsbD (i + 1) := by
  by_cases htop : i = 7
  · subst htop
    cases level <;> simp [shiftIn, levelBit]
  · have hlow : i < 7 := by omega
    simp [shiftIn, hi, htop, hlow, Nat.add_comm]

/-- The last bits shifted in stand on top, in their order. -/
theorem getLsbD_foldl_shiftIn (bits : List Bool) (b : Byte) {i j : Nat}
    (hi : i = 8 - bits.length + j) (hlen : bits.length ≤ 8) (hj : j < bits.length) :
    (bits.foldl shiftIn b).getLsbD i = bits[j] := by
  induction bits using List.reverseRecOn generalizing i with
  | nil => simp at hj
  | append_singleton rest bit ih =>
    rw [List.length_append, List.length_singleton] at hi hlen hj
    rw [List.foldl_append, List.foldl_cons, List.foldl_nil, getLsbD_shiftIn _ _ (by omega)]
    by_cases hlast : j = rest.length
    · subst hlast
      rw [if_pos (by omega), List.getElem_concat_length rfl]
    · rw [if_neg (by omega), ih (by omega) (by omega) (by omega),
        List.getElem_append_left (by omega)]

/-- R114: eight bits in wire order make the byte they came from. -/
theorem foldl_shiftIn_byteBits (b d : Byte) : (byteBits d).foldl shiftIn b = d := by
  apply BitVec.eq_of_getLsbD_eq
  intro j hj
  rw [getLsbD_foldl_shiftIn (byteBits d) b (j := j) (by simp) (by simp) (by simpa using hj)]
  simp [byteBits]

theorem frameBits_cons (d : Byte) (rest : List Byte) :
    frameBits (d :: rest) = byteBits d ++ frameBits rest := rfl

/-- The cells of whole bytes. -/
theorem Receiving.receive_frame (h : Receiving W c time done 0 r) (hlegal : c.legal W = true)
    (frame : List Byte) (hroom : done.length + frame.length < c.cap) :
    Receiving W c (time + 16 * frame.length * halfUs c.bitRate) (done ++ frame) 0
      (receive W c (time + halfUs c.bitRate)
        ((frameBits frame).flatMap (bitCell c.bitRate)) r) := by
  induction frame generalizing time done r with
  | nil => simpa [frameBits, receive] using h
  | cons d rest ih =>
    rw [List.length_cons] at hroom
    have hbyte := h.receive_bits hlegal (by omega) (bits := byteBits d) (by simp [byteBits])
      (by simp)
    rw [foldl_shiftIn_byteBits, byteBits_length] at hbyte
    have hrest := ih hbyte (by simp; omega)
    have hnext : time + halfUs c.bitRate + nominalUs ((byteBits d).flatMap (bitCell c.bitRate)) =
        time + 2 * 8 * halfUs c.bitRate + halfUs c.bitRate := by
      rw [nominalUs_bitCells, byteBits_length]
      ring
    have hend : time + 16 * (rest.length + 1) * halfUs c.bitRate =
        time + 2 * 8 * halfUs c.bitRate + 16 * rest.length * halfUs c.bitRate := by ring
    rw [frameBits_cons, List.flatMap_append, receive_append, List.length_cons, hnext, hend,
      ← List.singleton_append, ← List.append_assoc]
    exact hrest

/-- A whole transmission: its last bit stands half a bit period before its end (R111 to R114). -/
theorem IdleLow.receive_txSegments (h : IdleLow W c r) (start pulses : Nat) {frame : List Byte}
    (hroom : frame.length < c.cap) :
    Receiving W c
      (start + nominalUs (txSegments c.bitRate pulses frame) - halfUs c.bitRate) frame 0
      (receive W c start (txSegments c.bitRate pulses frame) r) := by
  have hmarker := (h.receive_preamble pulses start).receive_startMarker
    (start + nominalUs (List.replicate pulses (preamblePulse c.bitRate)).flatten)
  have hframe := hmarker.receive_frame h.sound.legal frame (by simpa using hroom)
  rw [nominalUs_preamble, List.nil_append] at hframe
  have hend : start + nominalUs (txSegments c.bitRate pulses frame) - halfUs c.bitRate =
      start + 2 * pulses * frameUs c.bitRate + startUs c.bitRate
        + 16 * frame.length * halfUs c.bitRate := by
    rw [nominalTransmitDuration]
    omega
  have hcells : start + nominalUs ((List.replicate pulses (preamblePulse c.bitRate)).flatten
      ++ startMarker c.bitRate) =
      start + 2 * pulses * frameUs c.bitRate + startUs c.bitRate + halfUs c.bitRate := by
    rw [nominalUs_append, nominalUs_preamble]
    simp only [startMarker, nominalUs_cons, nominalUs_nil]
    omega
  rw [hend, txSegments, receive_append, hcells, receive_append, nominalUs_preamble]
  exact hframe

/-- The low end of the line changes `PREV` at most. -/
theorem Receiving.line_end (h : Receiving W c time done n r) (hlegal : c.legal W = true) :
    Receiving W c time done n
      (rxStep W c (clockValue W (time + halfUs c.bitRate)) false r).rx := by
  rw [h.half hlegal]
  exact ⟨h.state, h.ref, h.bitCnt, h.byteCnt, h.wf, h.bytes⟩

end

/-! ### The silence -/

/-- R263: a frame as the transmitter builds it passes the receiver's check. -/
theorem chkOk_append_checksum (mode : ChkMode) (payload : List Byte) :
    chkOk mode (payload ++ (checksum mode payload).toList) = true := by
  cases mode with
  | noCheck => rfl
  | crc8 => exact (frameCheckComparesLastByte .crc8 payload _ (by simp)).mpr rfl
  | xor => exact (frameCheckComparesLastByte .xor payload _ (by simp)).mpr rfl

theorem Memory.take_readBytes (m : Memory) (i : Nat) {k n : Nat} (h : k ≤ n) :
    (Memory.readBytes m i n).take k = Memory.readBytes m i k := by
  simp [Memory.readBytes, ← List.map_take, List.take_range, h]

/-- R193: once the line is silent a whole frame is accepted. -/
theorem Receiving.accepts {W time g : Nat} {c : RxConfig} {frame : List Byte} {r : Rx}
    (h : Receiving W c time frame 0 r) (hlegal : c.legal W = true) (hlen : 2 ≤ frame.length)
    (hchk : chkOk c.chkMode frame = true) (hg : 1 ≤ g) (hg' : g ≤ startUs c.bitRate) :
    Accepts W c (clockValue W (time + (startUs c.bitRate + g))) r := by
  have hframe : r.frame = frame := by rw [Rx.frame, h.byteCnt, h.bytes]
  refine ⟨h.state, ?_, h.byteCnt ▸ hlen, hframe ▸ hchk⟩
  rw [h.ref, elapsed_clockValue_of_lt _ (lt_two_pow_of_le_startUs hlegal (by omega))]
  omega

/-- R194: the accepted frame's payload is exposed. -/
theorem Receiving.exposed {W t : Nat} {c : RxConfig} {payload sum : List Byte} {time : Nat} {r : Rx}
    (h : Receiving W c time (payload ++ sum) 0 r) (hsum : sum.length = checksumSize c.chkMode)
    (haccepts : Accepts W c t r) (level : Level) :
    (rxStep W c t level r).ret.toNat = payload.length ∧ (rxStep W c t level r).rx.state = .idle ∧
      (rxStep W c t level r).rx.ready = true ∧
      (rxStep W c t level r).rx.size.toNat = payload.length ∧
      Memory.readBytes (rxStep W c t level r).rx.rxBuf 0 payload.length = payload := by
  have hsize : (Rx.expose c.chkMode { r with state := .idle }).size.toNat = payload.length := by
    have hadd := haccepts.size_add
    rw [h.byteCnt, List.length_append, hsum] at hadd
    omega
  rw [rxStep_accept haccepts]
  refine ⟨hsize, rfl, rfl, hsize, ?_⟩
  change Memory.readBytes r.rxBuf 0 payload.length = payload
  rw [← Memory.take_readBytes (n := (payload ++ sum).length) _ _ (by simp), h.bytes,
    List.take_left]

/-- Settles O60: the transmission is received whole, its low end changes nothing that counts, and
the silence behind it accepts the frame. -/
theorem receiverDecodesTransmittedFrame : Obligations.ReceiverDecodesTransmittedFrame := by
  intro W start pulses g ct cr payload r _ hlegal hrate hmode hlow hhigh hsound hstate hprev hg hg'
    frame segs silence last
  have hsum : (checksum ct.chkMode payload).toList.length = checksumSize cr.chkMode := by
    rw [hmode, checksum_toList_length]
  have hlen : frame.length = payload.length + checksumSize cr.chkMode := by
    rw [List.length_append, hsum]
  have hchk : chkOk cr.chkMode frame = true := hmode ▸ chkOk_append_checksum ct.chkMode payload
  have hidle : IdleLow W cr r := ⟨hsound, hstate, hprev⟩
  have hsegs : segs = txSegments cr.bitRate pulses frame := by rw [← hrate]
  have hhalf : halfUs cr.bitRate ≤ nominalUs segs := by
    rw [hsegs, nominalTransmitDuration]
    omega
  have hreceived := hidle.receive_txSegments start pulses (frame := frame) (by omega)
  have hend := hreceived.line_end hlegal
  rw [← hsegs, Nat.sub_add_cancel (by omega), ← feed_lineSamples] at hend
  have haccepts := hend.accepts hlegal (by omega) hchk hg hg'
  rw [← Nat.add_assoc] at haccepts
  exact hend.exposed hsum haccepts false

end Sys2Proof.Machine
end
